-- ==== Sys2Proof/Word.lean ====
section
/-! DEFINITION. The words of the U256 unit: limbs, values, characters and strings (`00_scope.md` R7, R11, R13;
`10_state.md` R20, R21). Every quantity is unsigned (R9, R180). -/

namespace Sys2Proof

/-- One limb, and also one scalar (`X`, `Q`): a 64-bit word whose bit 0 is the least significant (R10, R20). -/
abbrev Limb := BitVec 64

/-- A 256-bit value, as it stands on a value port or register (R20, R21). `v.toNat` is the spec's `val(v)`;
limb i is bits `64*i+63 : 64*i` (R11), read by `Machine.limb`. -/
abbrev U256 := BitVec 256

/-- One character of a string: an 8-bit code (R7, R13, R77). -/
abbrev Byte := BitVec 8

/-- A string: a finite sequence of characters, position 0 first and most significant (R13, R52). -/
abbrev Str := List Byte

end Sys2Proof
end

