-- ==== Sys2Proof/Config.lean ====
section
/-! DEFINITION. What is fixed for the machine: the parameters of `00_scope.md` R6 and R7, the OPEN latency of R8, and
the free values that stand for the contents the spec leaves unspecified (`93_implementation_defined.md` U4). -/

namespace Sys2Proof.Config

/-! ### Parameters the source fixes (R6) -/

/-- `W`: width of a value in bits. -/
@[simp] abbrev w : Nat := 256
/-- `LIMB_BITS`: width of a limb in bits. -/
@[simp] abbrev limbBits : Nat := 64
/-- `NLIMBS`: limbs per value. -/
@[simp] abbrev nLimbs : Nat := 4
/-- `HEX_GROUP`: hexadecimal digits per limb. -/
@[simp] abbrev hexGroup : Nat := 16
/-- `BIN_GROUP`: binary digits per limb. -/
@[simp] abbrev binGroup : Nat := 64
/-- `HEX_MAX`: the most digits FROMHEX accepts. -/
@[simp] abbrev hexMax : Nat := 64
/-- `BIN_MAX`: the most digits FROMBIN accepts. -/
@[simp] abbrev binMax : Nat := 256
/-- `LIMB_INDEX_MAX`: the largest valid limb index. -/
@[simp] abbrev limbIndexMax : Nat := 3
/-- `BIT_INDEX_MAX`: the largest valid bit index. -/
@[simp] abbrev bitIndexMax : Nat := 255
/-- `T_MAX`: the most characters TOHEX produces. -/
@[simp] abbrev tMax : Nat := 64
/-- `T_BUF`: bytes of the output string buffer, `T_MAX` and one terminator. -/
@[simp] abbrev tBuf : Nat := 65
/-- `MUL_STEPS`: iterations of the multiplier loop. -/
@[simp] abbrev mulSteps : Nat := 256

/-! ### Parameters the spec decided (R7) -/

/-- `OP_BITS`: width of the opcode field. -/
@[simp] abbrev opBits : Nat := 4
/-- `X_BITS`: width of the scalar operand. -/
@[simp] abbrev xBits : Nat := 64
/-- `CHAR_BITS`: width of one character. -/
@[simp] abbrev charBits : Nat := 8
/-- `ERR_BITS`: width of the error field. -/
@[simp] abbrev errBits : Nat := 2
/-- `Q_BITS`: width of the scalar result. -/
@[simp] abbrev qBits : Nat := 64
/-- `TLEN_BITS`: width of the output length. -/
@[simp] abbrev tlenBits : Nat := 7

/-! ### Parameters left open (R8)

`STR_MAX` is an argument of the well-formedness check (`Sys2Proof/WellFormed.lean`). -/

/-- `LAT(op)`: the latency of a command in clock cycles, left OPEN (R8, R227). No rule reads it and neither does the
model, which has no time (log entry 8). -/
opaque latency : BitVec 4 → Nat

/-! ### Free values (R29, R31, U4; log entry 3)

What an internal working register holds after a command or after a reset is unspecified. Each is an uninterpreted
constant applied to the counter `State.fresh`, so nothing can be proved of the value. -/

/-- What the carry register `c` is left with. -/
opaque leftC : Nat → BitVec 1
/-- What the borrow register `bw` is left with. -/
opaque leftBw : Nat → BitVec 1
/-- What the accumulator `ACC` is left with. -/
opaque leftAcc : Nat → U256
/-- What the bit index `IDX` is left with. -/
opaque leftIdx : Nat → BitVec 9
/-- What the string cursor `CUR` is left with. -/
opaque leftCur : Nat → Nat

end Sys2Proof.Config
end

