-- ==== Sys2Proof/Machine/Operands.lean ====
section
/-! DEFINITION. Reading operands: the limbs and bits of a value (`10_state.md` R20, `20_memory.md` R51), the range
checks on an index (`30_encoding.md` R75), and the character codes (R77, kept as one table: `92_eei_decisions.md` D9). -/

namespace Sys2Proof.Machine

/-! ### Limbs and bits -/

/-- `v.limb[i] = v[64*i+63 : 64*i]` for i in 0..3 (R11, R51). -/
def limb (v : U256) (i : Nat) : Limb := v.extractLsb' (64 * i) 64

/-- The value `(l0, l1, l2, l3)`, least significant limb first (R11, R20). -/
def ofLimbs (l0 l1 l2 l3 : Limb) : U256 := l3 ++ l2 ++ l1 ++ l0

/-- `(v.limb[i div 64] >> (i mod 64)) & 1`, bit i of a value for i in 0..255 (R51, R131). -/
def bitOf (v : U256) (i : Nat) : Limb := (limb v (i / 64) >>> (i % 64)) &&& 1#64

/-! ### Scalar operands: the whole of `X`, unsigned, never reduced (R75) -/

/-- LIMB's index is in range (R130). -/
def limbIndexOk (x : BitVec 64) : Bool := decide (x.toNat ≤ Config.limbIndexMax)

/-- BITSET's index is in range (R131). -/
def bitIndexOk (x : BitVec 64) : Bool := decide (x.toNat ≤ Config.bitIndexMax)

/-! ### Characters (R77) -/

/-- The digit value of a hexadecimal digit character, `none` for every other code (R77). -/
def hexval (c : Byte) : Option Nat :=
  if 0x30 ≤ c.toNat ∧ c.toNat ≤ 0x39 then some (c.toNat - 0x30)
  else if 0x41 ≤ c.toNat ∧ c.toNat ≤ 0x46 then some (c.toNat - 0x41 + 10)
  else if 0x61 ≤ c.toNat ∧ c.toNat ≤ 0x66 then some (c.toNat - 0x61 + 10)
  else none

/-- The digit value of a binary digit character, `none` for every other code (R77). -/
def binval (c : Byte) : Option Nat :=
  if c.toNat = 0x30 then some 0 else if c.toNat = 0x31 then some 1 else none

/-- The lower-case hexadecimal character of a digit 0..15 (R77). -/
def hexchar (d : Nat) : Byte :=
  if d ≤ 9 then BitVec.ofNat 8 (0x30 + d) else BitVec.ofNat 8 (0x61 + (d - 10))

end Sys2Proof.Machine
end

