-- ==== Sys2Proof/Syntax.lean ====
section
/-! DEFINITION. The commands: the record on the command port (`30_encoding.md` R70), the eleven commands of the opcode
table as one inductive (R72), their operand formats (R71), and why a command port's opcode may be no command (R74). -/

namespace Sys2Proof

/-- What the host drives on the command port: the five fields of R24 and R70. -/
structure Command where
  /-- `OP[3:0]`, the opcode -/
  op : BitVec 4
  /-- `A[255:0]`, the first value operand -/
  a : U256
  /-- `B[255:0]`, the second value operand -/
  b : U256
  /-- `X[63:0]`, the scalar operand -/
  x : BitVec 64
  /-- `S`, the string operand with its length -/
  s : Str
deriving DecidableEq, Repr

/-- The commands, one constructor per row of `opcode_table.json`, each with the operands its format reads. -/
inductive Instr where
  /-- FROMU64 (R100): `fromU64(v)` -/
  | fromU64 (v : BitVec 64)
  /-- FROMLIMBS (R101): `fromLimbs(a0, a1, a2, a3)`, least significant limb first -/
  | fromLimbs (a0 a1 a2 a3 : Limb)
  /-- FROMHEX (R112): `fromHex(s)` -/
  | fromHex (s : Str)
  /-- FROMBIN (R113): `fromBin(s)` -/
  | fromBin (s : Str)
  /-- TOHEX (R120): `toHex(v)` -/
  | toHex (v : U256)
  /-- LIMB (R130): `limb(v, i)` -/
  | limb (v : U256) (i : BitVec 64)
  /-- BITSET (R131): `bitIsSet(v, i)` -/
  | bitSet (v : U256) (i : BitVec 64)
  /-- ADD (R140): `add(a, b)` -/
  | add (a b : U256)
  /-- SUB (R150): `sub(a, b)` -/
  | sub (a b : U256)
  /-- SHL (R160): `shiftLeft(v, n)` -/
  | shl (v : U256) (n : BitVec 64)
  /-- MUL (R170): `mul(a, b)` -/
  | mul (a b : U256)
deriving DecidableEq, Repr

/-- The mnemonics of the opcode table (R15, R72). -/
inductive Mnemonic where
  | FROMU64 | FROMLIMBS | FROMHEX | FROMBIN | TOHEX | LIMB | BITSET | ADD | SUB | SHL | MUL
deriving DecidableEq, Repr

/-- The seven operand formats (R71): the fields a command reads and the register that carries its result. -/
inductive Format where
  /-- `X->R` -/
  | xR
  /-- `A->R` -/
  | aR
  /-- `S->R` -/
  | sR
  /-- `A->T` -/
  | aT
  /-- `AX->Q` -/
  | axQ
  /-- `AX->R` -/
  | axR
  /-- `AB->R` -/
  | abR
deriving DecidableEq, Repr

/-- One row of the opcode map (R72). -/
structure OpRow where
  mask : BitVec 4
  pattern : BitVec 4
  mnemonic : Mnemonic
  format : Format
deriving DecidableEq, Repr

/-- Why a command port holds no command of the table. The decoder rejects by this name. -/
inductive Reject where
  /-- The opcode is reserved (R74): the unit answers it with IllegalOp. -/
  | reservedOpcode (op : BitVec 4)
deriving DecidableEq, Repr

end Sys2Proof
end

