-- ==== Sys2Proof/Machine/State.lean ====
section
/-! DEFINITION. The state of the U256 unit and of the host that drives it (`10_state.md`), the error causes
(`60_exceptions.md` R200), the reasons a step can stop (there is none), and the state after reset (R31). -/

namespace Sys2Proof.Machine

/-- The response registers (R25, R28): written all together by every command, read by the host. `T` is the first
`TLEN` bytes of `TBUF` (R58), so it is not stored a second time. -/
structure Response where
  /-- `ERR[1:0]`, the only status register (R28) -/
  err : BitVec 2
  /-- `R[255:0]`, the value result -/
  r : U256
  /-- `Q[63:0]`, the scalar result -/
  q : BitVec 64
  /-- `TLEN[6:0]`, the length of `T` -/
  tlen : BitVec 7
  /-- `TBUF[0]` to `TBUF[64]`, the buffer `T` is held in (R58) -/
  tbuf : Vector Byte 65
deriving DecidableEq, Repr

/-- The internal working registers (R29). No host reads them and each command initialises those it uses. -/
structure Work where
  /-- `c`, the carry of the adder -/
  c : BitVec 1
  /-- `bw`, the borrow of the subtractor -/
  bw : BitVec 1
  /-- `ACC`, the multiplier's accumulator -/
  acc : U256
  /-- `IDX`, the multiplier's bit index, 0..256 -/
  idx : BitVec 9
  /-- `CUR`, the string cursor: as wide as `len(S)` needs -/
  cur : Nat
deriving DecidableEq, Repr

/-- What the host can do to the unit (R33): present a command, or move the reset signal (R220). -/
inductive HostAction where
  /-- drive the command port with these fields and start a command -/
  | present (c : Command)
  /-- assert the reset signal -/
  | assertReset
  /-- release the reset signal -/
  | releaseReset
deriving DecidableEq, Repr

/-- The error conditions a command can raise (R200). -/
inductive Cause where
  /-- FROMHEX, FROMBIN (R201) -/
  | parseError
  /-- LIMB, BITSET (R202) -/
  | indexError
  /-- a reserved opcode (R203) -/
  | illegalOp
deriving DecidableEq, Repr

/-- The state. The unit's own registers are `resp` and `work`; `port`, `rst` and `script` are the host's side, held as
data because a step takes nothing but the state (log entries 4 and 5); `fresh` is the model's own (log entry 3). -/
structure State where
  /-- the response registers `ERR`, `R`, `Q`, `TLEN`, `TBUF` (R25) -/
  resp : Response
  /-- the internal working registers `c`, `bw`, `ACC`, `IDX`, `CUR` (R29) -/
  work : Work
  /-- the fields driven on the command port: `OP`, `A`, `B`, `X`, `S` (R24) -/
  port : Command
  /-- the reset signal is asserted (R220) -/
  rst : Bool
  /-- what the host does next, in its order, first element first (R33, R55) -/
  script : List HostAction
  /-- MODEL'S OWN: counts the free values drawn so far -/
  fresh : Nat
deriving DecidableEq, Repr

/-- Why the machine stops with a fault: there is no such reason. Every command answers with a complete response
(R30, R227) and an error is a value of `ERR` in it (R205), so this type is empty (log entry 6). -/
inductive Fault where
deriving DecidableEq, Repr

/-- Why an instruction has no meaning. -/
inductive Refusal where
  /-- Raised by `exec`'s arm of an instruction the model gives no meaning; no arm raises it. Safe: nothing runs. -/
  | notModelled (mnemonic : String)
deriving DecidableEq, Repr

/-- The response registers in the reset state (R31). -/
def Response.reset : Response := { err := 0, r := 0, q := 0, tlen := 0, tbuf := Vector.replicate 65 0 }

/-- The machine right after reset (R31, R220): `ERR`, `R`, `Q`, `TLEN`, `TBUF` as the spec says. The spec leaves the
working registers unspecified and gives the port no reset value: zero and empty here (log entries 1 and 2). The
signal is released and the host has nothing to do yet. -/
def State.reset : State :=
  { resp := Response.reset
    work := { c := 0, bw := 0, acc := 0, idx := 0, cur := 0 }
    port := { op := 0, a := 0, b := 0, x := 0, s := [] }
    rst := false
    script := []
    fresh := 0 }

end Sys2Proof.Machine
end

