-- ==== Sys2Proof/Machine/Ops.lean ====
section
/-! DEFINITION. The ways a command ends (`00_scope.md` R14), the output string buffer (`20_memory.md` R58), and raising
an error, which is all this unit has of taking an exception (`60_exceptions.md` R205). The spec gives no return from
one: an error is not sticky and needs no acknowledgement (R207). -/

namespace Sys2Proof.Machine

/-- What an outcome of this machine is. -/
abbrev Result := Host.Outcome State Fault Refusal

/-! ### The output string -/

/-- The 65-byte image of an output string: its characters, then zero bytes to the end (R58). -/
def bufferOf (t : Str) : Vector Byte 65 := Vector.ofFn fun k => t.getD k.val 0

/-- `T`: the first `TLEN` bytes of `TBUF` (R25, R58). -/
def Response.text (ρ : Response) : Str := ρ.tbuf.toList.take ρ.tlen.toNat

/-! ### The four endings of a command (R14, R25) -/

/-- The code of an error cause in `ERR` (R200); 0 is no error. -/
def Cause.code : Cause → BitVec 2
  | .parseError => 1
  | .indexError => 2
  | .illegalOp => 3

/-- `return_R(v)`. -/
def Response.ofR (v : U256) : Response := { err := 0, r := v, q := 0, tlen := 0, tbuf := bufferOf [] }

/-- `return_Q(q)`. -/
def Response.ofQ (q : BitVec 64) : Response := { err := 0, r := 0, q := q, tlen := 0, tbuf := bufferOf [] }

/-- `return_T(t)`. -/
def Response.ofT (t : Str) : Response :=
  { err := 0, r := 0, q := 0, tlen := BitVec.ofNat 7 t.length, tbuf := bufferOf t }

/-- `raise E`: the error code, and zero in every data register (R205). -/
def Response.ofError (e : Cause) : Response := { err := e.code, r := 0, q := 0, tlen := 0, tbuf := bufferOf [] }

/-- The working registers with the contents the spec leaves unspecified (R29, U4): the n-th free values. -/
def Work.leftOver (n : Nat) : Work :=
  { c := Config.leftC n, bw := Config.leftBw n, acc := Config.leftAcc n, idx := Config.leftIdx n, cur := Config.leftCur n }

/-- A command completes: all five response registers change at once (R25, R56), and nothing is known of the working
registers afterwards (U4). Port, reset signal and the host's script stay (R23). -/
def State.complete (s : State) (ρ : Response) : State :=
  { s with resp := ρ, work := Work.leftOver s.fresh, fresh := s.fresh + 1 }

/-- A command that succeeds with a value. -/
def returnR (v : U256) (s : State) : Result := .next (s.complete (Response.ofR v))

/-- A command that succeeds with a scalar. -/
def returnQ (q : BitVec 64) (s : State) : Result := .next (s.complete (Response.ofQ q))

/-- A command that succeeds with a string. -/
def returnT (t : Str) (s : State) : Result := .next (s.complete (Response.ofT t))

/-- RAISING AN ERROR (R205): the error response is written and the command is over. No control goes anywhere, no mode
changes, nothing is saved. -/
def raise (e : Cause) (s : State) : Result := .next (s.complete (Response.ofError e))

/-! ### Reset (R31, R220) -/

/-- The unit while reset is asserted: the response registers in the reset state, the working registers unspecified. -/
def State.resetUnit (s : State) : State :=
  { s with resp := Response.reset, work := Work.leftOver s.fresh, fresh := s.fresh + 1 }

end Sys2Proof.Machine
end

