-- ==== Sys2Proof/Machine/Access.lean ====
section
/-! DEFINITION. The accessors: LIMB and BITSET (`43_accessors.md`). An index out of range is always IndexError
(`90_conflicts.md` C1). -/

namespace Sys2Proof.Machine

/-- LIMB (R130). -/
def execLimb (v : U256) (i : BitVec 64) (s : State) : Result :=
  if limbIndexOk i then returnQ (limb v i.toNat) s else raise .indexError s

/-- BITSET (R131): the bit in `Q[0]`, `Q[63:1]` zero. -/
def execBitSet (v : U256) (i : BitVec 64) (s : State) : Result :=
  if bitIndexOk i then returnQ (bitOf v i.toNat) s else raise .indexError s

end Sys2Proof.Machine
end

