-- ==== Sys2Proof/Machine/Construct.lean ====
section
/-! DEFINITION. Construction: FROMU64 and FROMLIMBS (`40_construction.md`). -/

namespace Sys2Proof.Machine

/-- FROMU64 (R100): limb 0 is v, limbs 1 to 3 are zero. -/
def execFromU64 (v : BitVec 64) (s : State) : Result := returnR (ofLimbs v 0 0 0) s

/-- FROMLIMBS (R101): direct assignment, index i from least to most significant. -/
def execFromLimbs (a0 a1 a2 a3 : Limb) (s : State) : Result := returnR (ofLimbs a0 a1 a2 a3) s

end Sys2Proof.Machine
end

