-- ==== Sys2Proof/Machine/Convert.lean ====
section
/-! DEFINITION. The string-to-limbs converter: FROMHEX and FROMBIN (`41_string_to_limbs.md`). The two commands share one
algorithm and differ in the constants of a `DigitFormat`. -/

namespace Sys2Proof.Machine

/-- The constants the two parsers differ in (the table at the head of `41_string_to_limbs.md`). -/
structure DigitFormat where
  /-- `dv`: the digit value of a character -/
  dv : Byte → Option Nat
  /-- `BASE` -/
  base : Nat
  /-- `G`, characters per limb -/
  group : Nat
  /-- `MAXLEN`, the longest accepted string -/
  maxLen : Nat

/-- FROMHEX's constants. -/
def hexFormat : DigitFormat := { dv := hexval, base := 16, group := Config.hexGroup, maxLen := Config.hexMax }

/-- FROMBIN's constants. -/
def binFormat : DigitFormat := { dv := binval, base := 2, group := Config.binGroup, maxLen := Config.binMax }

/-- Validation of the whole string (R110): not too long, and digits only. -/
def accepts (f : DigitFormat) (str : Str) : Bool :=
  decide (str.length ≤ f.maxLen) && str.all fun ch => (f.dv ch).isSome

/-- The value of a group read as a numeral, first character most significant (R111, R112). -/
def groupLimb (f : DigitFormat) (g : Str) : Limb :=
  BitVec.ofNat 64 (g.foldl (fun acc ch => acc * f.base + (f.dv ch).getD 0) 0)

/-- One limb of the converter: the up-to-`G` characters before the cursor are consumed (R111). -/
def takeGroup (f : DigitFormat) (str : Str) (w : Work) : Limb × Work :=
  let lo := w.cur - f.group
  (groupLimb f ((str.take w.cur).drop lo), { w with cur := lo })

/-- The four limbs of an accepted string, from the right end (R111). -/
def convert (f : DigitFormat) (str : Str) (w : Work) : U256 × Work :=
  let g0 := takeGroup f str { w with cur := str.length }
  let g1 := takeGroup f str g0.2
  let g2 := takeGroup f str g1.2
  let g3 := takeGroup f str g2.2
  (ofLimbs g0.1 g1.1 g2.1 g3.1, g3.2)

/-- FROMHEX (R112): validated whole before any limb is built (R208). -/
def execFromHex (str : Str) (s : State) : Result :=
  if accepts hexFormat str then returnR (convert hexFormat str s.work).1 s else raise .parseError s

/-- FROMBIN (R113). -/
def execFromBin (str : Str) (s : State) : Result :=
  if accepts binFormat str then returnR (convert binFormat str s.work).1 s else raise .parseError s

end Sys2Proof.Machine
end

