-- ==== Sys2Proof/Machine/Format.lean ====
section
/-! DEFINITION. The limbs-to-hex formatter: TOHEX (`42_formatting.md`). -/

namespace Sys2Proof.Machine

/-- `pad16(x)`: sixteen digits, most significant first, leading zeros kept (R120). -/
def pad16 (x : Limb) : Str :=
  (List.range 16).map fun p => hexchar (x.extractLsb' (60 - 4 * p) 4).toNat

/-- `nopad(x)`: the digits of a non-zero limb with no leading zero (R120). -/
def nopad (x : Limb) : Str := (pad16 x).dropWhile (· == 0x30#8)

/-- Limbs i-1 down to 0, each padded to sixteen digits (R120). -/
def paddedBelow (v : U256) : Nat → Str
  | 0 => []
  | i + 1 => pad16 (limb v i) ++ paddedBelow v i

/-- The canonical string when no limb above limb i is non-zero (R120). -/
def textFrom (v : U256) : Nat → Str
  | 0 => if limb v 0 = 0 then [0x30#8] else nopad (limb v 0)
  | i + 1 => if limb v (i + 1) = 0 then textFrom v i else nopad (limb v (i + 1)) ++ paddedBelow v (i + 1)

/-- The canonical lower-case hexadecimal string of a value (R120). -/
def hexText (v : U256) : Str := textFrom v 3

/-- TOHEX (R120). -/
def execToHex (v : U256) (s : State) : Result := returnT (hexText v) s

end Sys2Proof.Machine
end

