-- ==== Sys2Proof/Machine/Flags.lean ====
section
/-! DEFINITION. The unit has no flag (`10_state.md` R27). What stands here are the two one-bit chains inside a command:
the limb steps of the adder with its carry (`44_add.md` R141) and of the subtractor with its borrow (`45_sub.md` R151). -/

namespace Sys2Proof.Machine

/-- One limb of the adder: sum word and carry-out of `x + y + cin` (R141). -/
def addStep (x y : Limb) (cin : BitVec 1) : Limb × BitVec 1 :=
  let t := x.toNat + y.toNat + cin.toNat
  (BitVec.ofNat 64 (t % 2 ^ 64), BitVec.ofNat 1 (t / 2 ^ 64))

/-- One limb of the subtractor: difference word and borrow-out of `x - y - bin` (R151). -/
def subStep (x y : Limb) (bin : BitVec 1) : Limb × BitVec 1 :=
  let d : Int := (x.toNat : Int) - y.toNat - bin.toNat
  if d < 0 then (BitVec.ofNat 64 (d + 2 ^ 64).toNat, 1) else (BitVec.ofNat 64 d.toNat, 0)

end Sys2Proof.Machine
end

