-- ==== Sys2Proof/Machine/Add.lean ====
section
/-! DEFINITION. The limb-based adder with carry propagation: ADD (`44_add.md`). -/

namespace Sys2Proof.Machine

/-- One limb of an addition, from and to the carry register (R140, R141). -/
def addLimb (a b : U256) (i : Nat) (w : Work) : Limb × Work :=
  let t := addStep (limb a i) (limb b i) w.c
  (t.1, { w with c := t.2 })

/-- The adder: the carry starts at 0 and the limbs go from least to most significant; the last carry is reported
nowhere (R140). -/
def adder (a b : U256) (w : Work) : U256 × Work :=
  let r0 := addLimb a b 0 { w with c := 0 }
  let r1 := addLimb a b 1 r0.2
  let r2 := addLimb a b 2 r1.2
  let r3 := addLimb a b 3 r2.2
  (ofLimbs r0.1 r1.1 r2.1 r3.1, r3.2)

/-- ADD (R140). -/
def execAdd (a b : U256) (s : State) : Result := returnR (adder a b s.work).1 s

end Sys2Proof.Machine
end

