-- ==== Sys2Proof/Machine/Shift.lean ====
section
/-! DEFINITION. The left barrel shifter: SHL (`46_shift_left.md`), directly on the limbs (R161, R163). -/

namespace Sys2Proof.Machine

/-- `src(i - w)`: the limb w places below limb i, zero where there is none (R161). -/
def srcLimb (v : U256) (i w : Nat) : Limb := if w ≤ i then limb v (i - w) else 0

/-- Limb i of the shifted value (R161): a 64-bit shift by 64 is never formed. -/
def shlLimb (v : U256) (n i : Nat) : Limb :=
  let w := n / 64
  let b := n % 64
  let upper := srcLimb v i w <<< b
  let lower := if b = 0 then 0 else srcLimb v i (w + 1) >>> (64 - b)
  upper ||| lower

/-- `shiftLeft(v, n)` for every natural n; 256 or more gives zero with no test of its own (R161). -/
def shifter (v : U256) (n : Nat) : U256 := ofLimbs (shlLimb v n 0) (shlLimb v n 1) (shlLimb v n 2) (shlLimb v n 3)

/-- SHL (R160), by the whole of `X`, never reduced (R75). -/
def execShl (v : U256) (n : BitVec 64) (s : State) : Result := returnR (shifter v n.toNat) s

end Sys2Proof.Machine
end

