-- ==== Sys2Proof/Machine/Mul.lean ====
section
/-! DEFINITION. The shift-and-add multiplier: MUL (`47_mul.md`), on the working registers `ACC` and `IDX`. -/

namespace Sys2Proof.Machine

/-- One pass of the loop: if bit `IDX` of b is set, the shifted multiplicand is added to `ACC`; `IDX` advances
(R170). -/
def mulStep (a b : U256) (w : Work) : Work :=
  let w' :=
    if bitOf b w.idx.toNat = 1 then
      let sum := adder w.acc (shifter a w.idx.toNat) w
      { sum.2 with acc := sum.1 }
    else w
  { w' with idx := w.idx + 1 }

/-- The working registers after n passes from `ACC = 0`, `IDX = 0` (R170). -/
def mulLoop (a b : U256) (w : Work) : Nat → Work
  | 0 => { w with acc := 0, idx := 0 }
  | n + 1 => mulStep a b (mulLoop a b w n)

/-- The multiplier: all 256 bit positions (R170, R174). -/
def multiplier (a b : U256) (w : Work) : U256 × Work :=
  let w' := mulLoop a b w Config.mulSteps
  (w'.acc, w')

/-- MUL (R170). -/
def execMul (a b : U256) (s : State) : Result := returnR (multiplier a b s.work).1 s

end Sys2Proof.Machine
end

