-- ==== Sys2Proof/Machine/Sub.lean ====
section
/-! DEFINITION. The subtractor with borrow propagation: SUB (`45_sub.md`), by its own borrow chain (`90_conflicts.md`
C7). -/

namespace Sys2Proof.Machine

/-- One limb of a subtraction, from and to the borrow register (R150, R151). -/
def subLimb (a b : U256) (i : Nat) (w : Work) : Limb × Work :=
  let d := subStep (limb a i) (limb b i) w.bw
  (d.1, { w with bw := d.2 })

/-- The subtractor, a minus b: the borrow starts at 0 and the last borrow is reported nowhere (R150). -/
def subtractor (a b : U256) (w : Work) : U256 × Work :=
  let r0 := subLimb a b 0 { w with bw := 0 }
  let r1 := subLimb a b 1 r0.2
  let r2 := subLimb a b 2 r1.2
  let r3 := subLimb a b 3 r2.2
  (ofLimbs r0.1 r1.1 r2.1 r3.1, r3.2)

/-- SUB (R150). -/
def execSub (a b : U256) (s : State) : Result := returnR (subtractor a b s.work).1 s

end Sys2Proof.Machine
end

