-- ==== Sys2Proof/Machine/Dispatch.lean ====
section
/-! DEFINITION. One arm per command of the opcode table (`30_encoding.md` R72). -/

namespace Sys2Proof.Machine

def exec (i : Instr) (s : State) : Host.Outcome State Fault Refusal :=
  match i with
  | .fromU64 v => Sys2Proof.Machine.execFromU64 v s
  | .fromLimbs a0 a1 a2 a3 => Sys2Proof.Machine.execFromLimbs a0 a1 a2 a3 s
  | .fromHex str => Sys2Proof.Machine.execFromHex str s
  | .fromBin str => Sys2Proof.Machine.execFromBin str s
  | .toHex v => Sys2Proof.Machine.execToHex v s
  | .limb v x => Sys2Proof.Machine.execLimb v x s
  | .bitSet v x => Sys2Proof.Machine.execBitSet v x s
  | .add a b => Sys2Proof.Machine.execAdd a b s
  | .sub a b => Sys2Proof.Machine.execSub a b s
  | .shl v n => Sys2Proof.Machine.execShl v n s
  | .mul a b => Sys2Proof.Machine.execMul a b s

end Sys2Proof.Machine
end

