-- ==== Sys2Proof/Decode.lean ====
section
/-! DEFINITION. The opcode map, the decoder and the encoder (`30_encoding.md` R70 to R82). The decoder is total on every
command record and rejects a reserved opcode by name; what the unit does then is `Machine/Reserved.lean`. -/

namespace Sys2Proof

open Machine (limb ofLimbs)

/-! ### The opcode map -/

/-- The opcode map, row by row (R72): a decoder compares all four bits of `OP`. -/
def opcodeTable : List OpRow :=
  [⟨0xF, 0x0, .FROMU64, .xR⟩, ⟨0xF, 0x1, .FROMLIMBS, .aR⟩, ⟨0xF, 0x2, .FROMHEX, .sR⟩, ⟨0xF, 0x3, .FROMBIN, .sR⟩,
   ⟨0xF, 0x4, .TOHEX, .aT⟩, ⟨0xF, 0x5, .LIMB, .axQ⟩, ⟨0xF, 0x6, .BITSET, .axQ⟩, ⟨0xF, 0x7, .ADD, .abR⟩,
   ⟨0xF, 0x8, .SUB, .abR⟩, ⟨0xF, 0x9, .SHL, .axR⟩, ⟨0xF, 0xA, .MUL, .abR⟩]

/-- The row matches the opcode (R72: mask, then compare). -/
def OpRow.selects (r : OpRow) (op : BitVec 4) : Bool := op &&& r.mask == r.pattern

/-- The row of R72 that applies to an opcode; none for the five reserved ones (R74, R82). -/
def lookup (op : BitVec 4) : Option OpRow := opcodeTable.find? (·.selects op)

/-- The format reads field `A` (R71). -/
def Format.readsA : Format → Bool
  | .xR => false | .aR => true | .sR => false | .aT => true | .axQ => true | .axR => true | .abR => true

/-- The format reads field `B` (R71). -/
def Format.readsB : Format → Bool
  | .xR => false | .aR => false | .sR => false | .aT => false | .axQ => false | .axR => false | .abR => true

/-- The format reads field `X` (R71). -/
def Format.readsX : Format → Bool
  | .xR => true | .aR => false | .sR => false | .aT => false | .axQ => true | .axR => true | .abR => false

/-- The format reads field `S` (R71). -/
def Format.readsS : Format → Bool
  | .xR => false | .aR => false | .sR => true | .aT => false | .axQ => false | .axR => false | .abR => false

/-! ### Decoding -/

/-- The command of a mnemonic with its operands taken from the port's fields (R24, R71, R76). -/
def assemble (m : Mnemonic) (c : Command) : Instr :=
  match m with
  | .FROMU64 => .fromU64 c.x
  | .FROMLIMBS => .fromLimbs (limb c.a 0) (limb c.a 1) (limb c.a 2) (limb c.a 3)
  | .FROMHEX => .fromHex c.s
  | .FROMBIN => .fromBin c.s
  | .TOHEX => .toHex c.a
  | .LIMB => .limb c.a c.x
  | .BITSET => .bitSet c.a c.x
  | .ADD => .add c.a c.b
  | .SUB => .sub c.a c.b
  | .SHL => .shl c.a c.x
  | .MUL => .mul c.a c.b

/-- Decoding: total, by `OP` alone (R72, R82). A reserved opcode is rejected by name (R74). -/
def decode (c : Command) : Except Reject Instr :=
  match lookup c.op with
  | some row => .ok (assemble row.mnemonic c)
  | none => .error (.reservedOpcode c.op)

/-! ### Encoding -/

/-- A port with every field zero and the empty string: how R79 drives the fields a command does not list. -/
def Command.quiet : Command := { op := 0, a := 0, b := 0, x := 0, s := [] }

/-- The mnemonic of a command (R15). -/
def Instr.mnemonic : Instr → Mnemonic
  | .fromU64 _ => .FROMU64
  | .fromLimbs _ _ _ _ => .FROMLIMBS
  | .fromHex _ => .FROMHEX
  | .fromBin _ => .FROMBIN
  | .toHex _ => .TOHEX
  | .limb _ _ => .LIMB
  | .bitSet _ _ => .BITSET
  | .add _ _ => .ADD
  | .sub _ _ => .SUB
  | .shl _ _ => .SHL
  | .mul _ _ => .MUL

/-- The opcode of a mnemonic, from R72's assignments. -/
def Mnemonic.opcode : Mnemonic → BitVec 4
  | .FROMU64 => 0x0
  | .FROMLIMBS => 0x1
  | .FROMHEX => 0x2
  | .FROMBIN => 0x3
  | .TOHEX => 0x4
  | .LIMB => 0x5
  | .BITSET => 0x6
  | .ADD => 0x7
  | .SUB => 0x8
  | .SHL => 0x9
  | .MUL => 0xA

/-- The port fields a host drives for a command, as the table of R79 lists them. -/
def encode (i : Instr) : Command :=
  let port := { Command.quiet with op := i.mnemonic.opcode }
  match i with
  | .fromU64 v => { port with x := v }
  | .fromLimbs a0 a1 a2 a3 => { port with a := ofLimbs a0 a1 a2 a3 }
  | .fromHex s => { port with s := s }
  | .fromBin s => { port with s := s }
  | .toHex v => { port with a := v }
  | .limb v i => { port with a := v, x := i }
  | .bitSet v i => { port with a := v, x := i }
  | .add a b => { port with a := a, b := b }
  | .sub a b => { port with a := a, b := b }
  | .shl v n => { port with a := v, x := n }
  | .mul a b => { port with a := a, b := b }

/-! ### Pseudo-commands (R80) -/

/-- `NEG b` expands to `SUB (0,0,0,0), b`. -/
def pseudoNeg (b : U256) : Instr := .sub (ofLimbs 0 0 0 0) b

/-- `ZERO` expands to `FROMU64 0`. -/
def pseudoZero : Instr := .fromU64 0

/-! ### The opcode table's words -/

/-- The port of an opcode-table word: the table's bits 3..0 are `OP`, it numbers no other field, and every field it
gives no bits is zero or empty (log entry 7). -/
def commandOfTableWord (nbits word : Nat) : Command :=
  { Command.quiet with op := BitVec.ofNat 4 (word % 2 ^ nbits) }

/-- What the decoder reads from an opcode-table word; none where it rejects. -/
def decodeTableWord (nbits w : Nat) : Option Instr :=
  match decode (commandOfTableWord nbits w) with
  | .ok i => some i
  | .error _ => none

end Sys2Proof
end

