-- ==== Sys2Proof/Machine/HostPort.lean ====
section
/-! DEFINITION. What the host's next action asks of the unit: where a command comes from (`10_state.md` R33,
`20_memory.md` R55) and what the reset signal does (`70_reset_and_hazards.md` R220, R221). -/

namespace Sys2Proof.Machine

/-- What one step is about. -/
inductive Event where
  /-- no command runs; the state is this one -/
  | settled (t : State)
  /-- this command runs, from the state in which its fields have been sampled -/
  | run (i : Instr) (t : State)
  /-- a reserved opcode was presented -/
  | reserved (t : State)
deriving DecidableEq, Repr

/-- The host drives the port with these fields, which the unit samples once (R226). -/
def State.sample (s : State) (c : Command) (rest : List HostAction) : State := { s with port := c, script := rest }

/-- No command: the response registers hold (R25), or stay at reset while the signal is asserted (R31). -/
def State.idle (s : State) : State := if s.rst then s.resetUnit else s

/-- The reset signal moves to this level. Asserting it resets the unit; after a release the unit is in the reset
state (R31, R220); releasing a signal that was not asserted changes nothing. -/
def State.setReset (s : State) (level : Bool) (rest : List HostAction) : State :=
  if level || s.rst then { s.resetUnit with rst := level, script := rest } else { s with script := rest }

/-- The event of a presented command: while reset is asserted the unit accepts none (R220). -/
def presented (c : Command) (t : State) : Event :=
  if t.rst then .settled t.resetUnit
  else
    match decode c with
    | .ok i => .run i t
    | .error _ => .reserved t

/-- The next event: the host's actions are taken one at a time, in its order (R55). -/
def nextEvent (s : State) : Event :=
  match s.script with
  | [] => .settled s.idle
  | .present c :: rest => presented c (s.sample c rest)
  | .assertReset :: rest => .settled (s.setReset true rest)
  | .releaseReset :: rest => .settled (s.setReset false rest)

/-- The state in which the host will next present this command with the signal released (log entry 7). -/
def State.withNextCommand (s : State) (c : Command) : State := { s with rst := false, script := .present c :: s.script }

end Sys2Proof.Machine
end

