-- ==== Sys2Proof/Machine/Reserved.lean ====
section
/-! DEFINITION. The reserved opcodes 0xB to 0xF (`30_encoding.md` R74, `60_exceptions.md` R203). -/

namespace Sys2Proof.Machine

/-- A command with a reserved opcode raises IllegalOp, reads no operand and does nothing else (R74). -/
def execReserved (s : State) : Result := raise .illegalOp s

end Sys2Proof.Machine
end

