-- ==== Sys2Proof/Machine/Step.lean ====
section
/-! DEFINITION. One step: one host action, and the whole command if it presents one (`20_memory.md` R55, R56). -/

namespace Sys2Proof.Machine

/-- One step of the host and the unit together. -/
def step (s : State) : Host.Outcome State Fault Refusal :=
  match nextEvent s with
  | .settled t => .next t
  | .run i t => exec i t
  | .reserved t => execReserved t

/-- The opcode-table word placed where the next step takes its command: the host presents it next (log entry 7). -/
def State.withFetchWord (s : State) (nbits w : Nat) : State := s.withNextCommand (commandOfTableWord nbits w)

end Sys2Proof.Machine
end

