-- ==== Sys2Proof/WellFormed.lean ====
section
/-! DEFINITION. Which commands a command port of a given string capacity can carry. Widths are in the types, so the
one thing left to check is the length of `S` against the OPEN parameter `STR_MAX` (`00_scope.md` R8,
`92_eei_decisions.md` D21), taken here as an argument. -/

namespace Sys2Proof

/-- `STR_MAX`: the longest string the port carries; `none` is an unbounded port (R8). -/
abbrev StrMax := Option Nat

/-- A capacity R8 allows: at least 257 characters, or unbounded. -/
def StrMax.legal : StrMax → Bool
  | none => true
  | some n => decide (257 ≤ n)

/-- The string fits a port of this capacity. -/
def StrMax.fits (m : StrMax) (s : Str) : Bool :=
  match m with
  | none => true
  | some n => decide (s.length ≤ n)

/-- The command port of capacity `m` can carry this record. -/
def Command.wellFormed (m : StrMax) (c : Command) : Bool := m.fits c.s

/-- A host with a port of capacity `m` can present this command. -/
def Instr.wellFormed (m : StrMax) : Instr → Bool
  | .fromU64 _ => true
  | .fromLimbs _ _ _ _ => true
  | .fromHex s => m.fits s
  | .fromBin s => m.fits s
  | .toHex _ => true
  | .limb _ _ => true
  | .bitSet _ _ => true
  | .add _ _ => true
  | .sub _ _ => true
  | .shl _ _ => true
  | .mul _ _ => true

end Sys2Proof
end

