-- ==== Sys2Proof/Safety.lean ====
section
/-! DEFINITION. The terms in which claims about the unit are stated: what a response is, what a command answers from
every state, the spec's own numerals and canonical strings, and the invariant of the response registers. Limbs, bits and
digit sums are written here from the spec's formulas, not by the model's operations. -/

namespace Sys2Proof.Machine

/-! ### Responses and answers -/

/-- The response registers hold exactly this response: `T` is `t`, `TLEN` its length, and `TBUF` its characters
followed by zero bytes (R14, R25, R58). -/
def RespIs (ρ : Response) (err : BitVec 2) (r : U256) (q : BitVec 64) (t : Str) : Prop :=
  ρ.err = err ∧ ρ.r = r ∧ ρ.q = q ∧ ρ.text = t ∧ ρ.tlen.toNat = t.length ∧ t.length ≤ 64 ∧
    ∀ k : Fin 65, ρ.tbuf[k] = t.getD k.val 0

/-- The frame of a command: the five operand fields, the reset signal and what the host does next (R23). The working
registers are not in it, because the spec leaves them unspecified (U4). -/
def HostKept (s u : State) : Prop := u.port = s.port ∧ u.rst = s.rst ∧ u.script = s.script

/-- From EVERY state the command completes with this response and keeps the frame: `exec` answers `next`. -/
def AnswersWith (i : Instr) (err : BitVec 2) (r : U256) (q : BitVec 64) (t : Str) : Prop :=
  ∀ s : State, ∃ u : State, exec i s = .next u ∧ RespIs u.resp err r q t ∧ HostKept s u

/-- From every state the command succeeds with the value `v` (`return_R`, R14). -/
def Yields (i : Instr) (v : U256) : Prop := AnswersWith i 0 v 0 []

/-- From every state the command succeeds with the scalar `q` (`return_Q`, R14). -/
def YieldsQ (i : Instr) (q : BitVec 64) : Prop := AnswersWith i 0 0 q []

/-- From every state the command succeeds with the string `t` (`return_T`, R14). -/
def YieldsT (i : Instr) (t : Str) : Prop := AnswersWith i 0 0 0 t

/-- From every state the command fails with this error code and zero data (`raise`, R14, R205). -/
def Raises (i : Instr) (code : BitVec 2) : Prop := AnswersWith i code 0 0 []

/-- The state `s` with reset released and a host that next presents `c` and then goes on with `rest`. -/
def State.presenting (s : State) (c : Command) (rest : List HostAction) : State :=
  { s with rst := false, script := .present c :: rest }

/-! ### Limbs (R10, R11) -/

/-- Limb i of a value, as a number: `(v div 2^(64*i)) mod 2^64`. -/
def limbVal (v : U256) (i : Nat) : Nat := v.toNat / 2 ^ (64 * i) % 2 ^ 64

/-- `src(j)` of R161: limb j of the operand, 0 for an index outside 0..3. -/
def srcVal (v : U256) (j : Int) : Nat := if 0 ≤ j ∧ j ≤ 3 then limbVal v j.toNat else 0

/-- Limb m is the highest non-zero limb (R120). -/
def TopLimb (v : U256) (m : Nat) : Prop := m < 4 ∧ limbVal v m ≠ 0 ∧ ∀ j, m < j → j < 4 → limbVal v j = 0

/-! ### Strings -/

/-- A digit string the parsers accept: not longer than `maxLen`, every character a digit (R110). -/
def Accepted (dv : Byte → Option Nat) (maxLen : Nat) (str : Str) : Prop :=
  str.length ≤ maxLen ∧ ∀ k, k < str.length → dv (str.getD k 0) ≠ none

/-- `Σ for k in lo .. hi-1 of dv(S[k]) * BASE^(hi-1-k)` (R111, R114). -/
def digitSum (dv : Byte → Option Nat) (base : Nat) (str : Str) (lo hi : Nat) : Nat :=
  ∑ k ∈ Finset.Ico lo hi, (dv (str.getD k 0)).getD 0 * base ^ (hi - 1 - k)

/-- `groupval(j)` of a string: group j ends `G*j` characters before the end and is up to `G` long (R111). -/
def groupVal (dv : Byte → Option Nat) (base g : Nat) (str : Str) (j : Nat) : Nat :=
  digitSum dv base str (str.length - g * (j + 1)) (str.length - g * j)

/-- The number a digit string denotes, `S[0]` most significant (R114). -/
def numeral (dv : Byte → Option Nat) (base : Nat) (str : Str) : Nat := digitSum dv base str 0 str.length

/-- One of the characters `0-9a-f` (R77, R121). -/
def LowerHex (ch : Byte) : Prop := (0x30 ≤ ch.toNat ∧ ch.toNat ≤ 0x39) ∨ (0x61 ≤ ch.toNat ∧ ch.toNat ≤ 0x66)

/-- The shortest lower-case hexadecimal numeral of n; `"0"` for zero (R121). -/
def ShortestHex (n : Nat) (t : Str) : Prop :=
  (∀ ch ∈ t, LowerHex ch) ∧ numeral hexval 16 t = n ∧ (n = 0 → t = [0x30#8]) ∧ (n ≠ 0 → t.head? ≠ some 0x30#8)

/-- Sixteen base-16 digits of a number, most significant first (`pad16`, R120). -/
def sixteenDigits (n : Nat) : Str := (List.range 16).map fun p => hexchar (n / 16 ^ (15 - p) % 16)

/-- A string without its leading `'0'` characters (`nopad`, R120; R122). -/
def dropZeros (str : Str) : Str := str.dropWhile (· == 0x30#8)

/-- `'A'..'F'` replaced by `'a'..'f'` (R122). -/
def lowered (ch : Byte) : Byte := if 0x41 ≤ ch.toNat ∧ ch.toNat ≤ 0x46 then ch + 0x20#8 else ch

/-- The canonical form of a hexadecimal string (R122): lower case, leading zeros removed, `"0"` if nothing remains. -/
def canon (str : Str) : Str :=
  match dropZeros (str.map lowered) with
  | [] => [0x30#8]
  | ch :: rest => ch :: rest

/-- `bin256(v)`: all 256 binary digits, most significant first (R163). -/
def bin256 (v : U256) : Str := (List.range 256).map fun k => if v.getLsbD (255 - k) then 0x31#8 else 0x30#8

/-! ### The invariant -/

/-- What the response registers always satisfy: `TLEN` is at most 64, `TBUF` holds lower-case hexadecimal digits up to
`TLEN` and zero bytes from there on (R25, R58), at most one result register is non-zero, and a failing response has
zero data (R25, R205). -/
def Response.Shaped (ρ : Response) : Prop :=
  ρ.tlen.toNat ≤ 64 ∧
    (∀ k : Fin 65, k.val < ρ.tlen.toNat → LowerHex ρ.tbuf[k]) ∧
    (∀ k : Fin 65, ρ.tlen.toNat ≤ k.val → ρ.tbuf[k] = 0) ∧
    (ρ.err ≠ 0 → ρ.r = 0 ∧ ρ.q = 0 ∧ ρ.tlen = 0) ∧
    (ρ.r ≠ 0 → ρ.q = 0 ∧ ρ.tlen = 0) ∧ (ρ.q ≠ 0 → ρ.tlen = 0)

/-- The invariant every step keeps: shaped response registers, and the reset values while reset is asserted (R31). -/
def State.Inv (s : State) : Prop := s.resp.Shaped ∧ (s.rst = true → s.resp = Response.reset)

/-- A safe step is one that answers a next state. -/
def State.Safe (s : State) : Prop := ∃ u : State, step s = .next u

end Sys2Proof.Machine
end

