-- ==== Sys2Proof/Certificates/Slice0/Obligations.lean ====
section
/-! DEFINITION. The statements for the provers. `Yields`, `YieldsQ`, `YieldsT` and `Raises` (`Sys2Proof/Safety.lean`) say that
`exec` answers a next state FROM EVERY STATE, with the whole response and the frame; `decode { c with op := … }` says which
command a port with that opcode is, whatever its other fields hold. -/

open Sys2Proof Sys2Proof.Machine

/-! ### Encoding -/

/-- The opcode map (R72; the opcode numbers are the spec's own decision D3): the mnemonic and the format of every opcode, and the command a port with that opcode is, for
every content of the other fields, with the limb order of R76. -/
def Obligations.OpcodeMapDecodes : Prop :=
  ((List.finRange 16).map fun op => (lookup (BitVec.ofFin op)).map fun row => (row.mnemonic, row.format)) =
    [some (.FROMU64, .xR), some (.FROMLIMBS, .aR), some (.FROMHEX, .sR), some (.FROMBIN, .sR), some (.TOHEX, .aT),
      some (.LIMB, .axQ), some (.BITSET, .axQ), some (.ADD, .abR), some (.SUB, .abR), some (.SHL, .axR),
      some (.MUL, .abR), none, none, none, none, none] ∧
  ∀ c : Command,
    decode { c with op := 0x0 } = .ok (.fromU64 c.x) ∧
    decode { c with op := 0x1 } = .ok (.fromLimbs (c.a.extractLsb' 0 64) (c.a.extractLsb' 64 64)
      (c.a.extractLsb' 128 64) (c.a.extractLsb' 192 64)) ∧
    decode { c with op := 0x2 } = .ok (.fromHex c.s) ∧
    decode { c with op := 0x3 } = .ok (.fromBin c.s) ∧
    decode { c with op := 0x4 } = .ok (.toHex c.a) ∧
    decode { c with op := 0x5 } = .ok (.limb c.a c.x) ∧
    decode { c with op := 0x6 } = .ok (.bitSet c.a c.x) ∧
    decode { c with op := 0x7 } = .ok (.add c.a c.b) ∧
    decode { c with op := 0x8 } = .ok (.sub c.a c.b) ∧
    decode { c with op := 0x9 } = .ok (.shl c.a c.x) ∧
    decode { c with op := 0xA } = .ok (.mul c.a c.b) ∧
    ∀ op : BitVec 4, 0xB ≤ op.toNat → decode { c with op := op } = .error (.reservedOpcode op)

/-- Decoding is total and by `OP` alone (R82, which the spec derives from R72 and R74): an opcode up to 0xA selects exactly
one row of the table and every port with it decodes to a command of that row's mnemonic; a higher one selects no row and
every port with it is rejected. So two ports with one opcode get one verdict. -/
def Obligations.EachOpcodeHasOneVerdict : Prop :=
  (∀ op : BitVec 4,
    (op.toNat ≤ 0xA ∧ ∃ row, row ∈ opcodeTable ∧ row.selects op = true ∧
      (∀ row', row' ∈ opcodeTable → row'.selects op = true → row' = row) ∧
      ∀ c : Command, c.op = op → ∃ i, decode c = .ok i ∧ i.mnemonic = row.mnemonic) ∨
    (0xB ≤ op.toNat ∧ (∀ row, row ∈ opcodeTable → row.selects op = false) ∧
      ∀ c : Command, c.op = op → decode c = .error (.reservedOpcode op))) ∧
  ∀ c d : Command, c.op = d.op →
    (∃ i j, decode c = .ok i ∧ decode d = .ok j ∧ i.mnemonic = j.mnemonic) ∨
      (decode c = .error (.reservedOpcode c.op) ∧ decode d = .error (.reservedOpcode c.op))

/-- Decode and encode agree, for every command that fits a port of any legal capacity: decoding an encoded command gives
it back, and encoding a decoded one gives back the port with exactly the ignored fields cleared. -/
def Obligations.DecodeEncodeAgree : Prop :=
  ∀ (m : StrMax) (i : Instr), m.legal = true → i.wellFormed m = true →
    decode (encode i) = .ok i ∧ (encode i).wellFormed m = true ∧
      ∀ c : Command, decode c = .ok i → ∃ row, lookup c.op = some row ∧ encode i =
        { op := c.op
          a := if row.format.readsA then c.a else 0
          b := if row.format.readsB then c.b else 0
          x := if row.format.readsX then c.x else 0
          s := if row.format.readsS then c.s else [] }

/-- A command ignores every field its format does not list (R73, the spec's own decision D8, which follows from R30): two ports that agree on `OP` and on the fields the
format reads get the same response, from any two states. -/
def Obligations.UnreadFieldsDoNotMatter : Prop :=
  ∀ (c d : Command) (row : OpRow), lookup c.op = some row → d.op = c.op →
    (row.format.readsA = true → d.a = c.a) → (row.format.readsB = true → d.b = c.b) →
    (row.format.readsX = true → d.x = c.x) → (row.format.readsS = true → d.s = c.s) →
    decode d = decode c ∧
      ∀ (s s' : State) (rest rest' : List HostAction), ∃ u u' : State,
        step (s.presenting c rest) = .next u ∧ step (s'.presenting d rest') = .next u' ∧ u'.resp = u.resp

/-- A reserved opcode raises IllegalOp and does nothing else, whatever the operand fields hold (R74, R203; the spec's own
decision D7). -/
def Obligations.ReservedOpcodeRaisesIllegalOp : Prop :=
  ∀ (s : State) (c : Command) (rest : List HostAction), 0xB ≤ c.op.toNat →
    ∃ u : State, step (s.presenting c rest) = .next u ∧ RespIs u.resp 3 0 0 [] ∧
      u.port = c ∧ u.rst = false ∧ u.script = rest

/-! ### Steps -/

/-- A step runs the decoded command: the host's action is consumed, the port holds the presented fields, and the step is
`exec` of the command there. -/
def Obligations.StepRunsDecodedCommand : Prop :=
  ∀ (s : State) (c : Command) (rest : List HostAction) (i : Instr), decode c = .ok i →
    step (s.presenting c rest) = exec i { s with rst := false, port := c, script := rest }

/-- The response is a function of the command's own fields and of nothing else (R30). That the presented command, the reset
signal and the host's further actions stand in the state is the model's choice (log entry 4). -/
def Obligations.ResponseIsFunctionOfCommand : Prop :=
  ∃ f : Command → Response, ∀ (s : State) (c : Command) (rest : List HostAction),
    ∃ u : State, step (s.presenting c rest) = .next u ∧ u.resp = f c ∧
      u.port = c ∧ u.rst = false ∧ u.script = rest

/-- Commands run one at a time in the host's order (R55): after the k-th command of any list the registers hold the
response of the k-th command, the same response it gets alone from any state. That the host's commands stand in the state as a
list is the model's choice (log entry 4). -/
def Obligations.RegistersHoldKthResponse : Prop :=
  ∃ f : Command → Response,
    (∀ (s : State) (c : Command) (rest : List HostAction),
      ∃ u : State, step (s.presenting c rest) = .next u ∧ u.resp = f c) ∧
    ∀ (s : State) (cs : List Command) (k : Nat) (hk : k < cs.length),
      ∃ u : State, Host.Core.run core (k + 1) { s with rst := false, script := cs.map .present } = .next u ∧
        u.resp = f cs[k] ∧ u.port = cs[k] ∧ u.script = (cs.drop (k + 1)).map .present

/-- Between commands the registers hold what the last command wrote (R25): with nothing presented a step changes nothing.
That such a step exists is the model's choice (log entry 4). -/
def Obligations.RegistersHoldBetweenCommands : Prop :=
  ∀ s : State, s.rst = false → s.script = [] → step s = .next s

/-- The reset signal (R220; the spec's own decision D12, and its level held in the state is the model's, log entry 5):
asserting it puts the response registers in the reset state, while it is asserted no command
is accepted, and after its release the unit is in the reset state; and `State.reset` is such a state. -/
def Obligations.ResetSignalResetsUnit : Prop :=
  (RespIs State.reset.resp 0 0 0 [] ∧ State.reset.rst = false) ∧
  ∀ (s : State) (c : Command) (rest : List HostAction),
    (∃ u : State, step { s with script := .assertReset :: rest } = .next u ∧
      RespIs u.resp 0 0 0 [] ∧ u.rst = true ∧ u.script = rest) ∧
    (∃ u : State, step { s with rst := true, script := .present c :: rest } = .next u ∧
      RespIs u.resp 0 0 0 [] ∧ u.rst = true ∧ u.script = rest) ∧
    ∃ u : State, step { s with rst := true, script := .releaseReset :: rest } = .next u ∧
      RespIs u.resp 0 0 0 [] ∧ u.rst = false ∧ u.script = rest

/-- Reset abandons a command (R221; the spec's own decision D12, log entries 5 and 14): after a command and a reset, the response registers and the rest of the host's
actions are as if the command had not been presented. -/
def Obligations.ResetErasesCommand : Prop :=
  ∀ (s : State) (c : Command) (rest : List HostAction), ∃ u u' : State,
    Host.Core.run core 2 { s with script := .present c :: .assertReset :: rest } = .next u ∧
    Host.Core.run core 1 { s with script := .assertReset :: rest } = .next u' ∧
    RespIs u.resp 0 0 0 [] ∧ u'.resp = u.resp ∧ u'.rst = u.rst ∧ u'.script = u.script

/-- No step hangs, faults or is refused (R82, R227; the spec's own decision D15): whatever the host does, the machine answers a next state. -/
def Obligations.EveryStepAnswers : Prop := ∀ s : State, s.Safe

/-- The reset state satisfies the invariant. -/
def Obligations.ResetStateInvariant : Prop := State.reset.Inv

/-- Every step keeps the invariant: the output buffer is always terminated and zero-filled, at most one result register
is non-zero, a failing response carries zero data, and the unit stays reset while reset is asserted. -/
def Obligations.StepKeepsInvariant : Prop :=
  ∀ s u : State, s.Inv → step s = .next u → u.Inv

/-- No command writes an operand field (R23): every command completes from every state and leaves the port, the reset
signal and the host's further actions as they were; so does the answer to a reserved opcode. -/
def Obligations.CommandsKeepOperands : Prop :=
  (∀ (i : Instr) (s : State), ∃ u : State, exec i s = .next u ∧ HostKept s u) ∧
  ∀ s : State, ∃ u : State, execReserved s = .next u ∧ HostKept s u

/-- Which registers a response may use (R78): on failure none, on success only the one the format names, with `TLEN` in
1..64 for TOHEX and `Q` 0 or 1 for BITSET. -/
def Obligations.FormatFixesResultRegister : Prop :=
  ∀ (c : Command) (row : OpRow), lookup c.op = some row → ∀ (s : State) (rest : List HostAction),
    ∃ u : State, step (s.presenting c rest) = .next u ∧
      (u.resp.err ≠ 0 → RespIs u.resp u.resp.err 0 0 []) ∧
      (u.resp.err = 0 →
        match row.format with
        | .aT => RespIs u.resp 0 0 0 u.resp.text ∧ 1 ≤ u.resp.text.length ∧ u.resp.text.length ≤ 64
        | .axQ => RespIs u.resp 0 0 u.resp.q [] ∧ (row.mnemonic = .BITSET → u.resp.q = 0 ∨ u.resp.q = 1)
        | .xR | .aR | .sR | .axR | .abR => RespIs u.resp 0 u.resp.r 0 [])

/-- The exact causes of the errors (R201, R202, R213): ParseError for a string the parser does not accept, IndexError
for an index out of range, and no other failure of any command. -/
def Obligations.ErrorCausesAreExact : Prop :=
  ∀ (i : Instr) (s : State), ∃ u : State, exec i s = .next u ∧
    (u.resp.err = 1 ↔
      (∃ str, i = .fromHex str ∧ ¬ Accepted hexval 64 str) ∨ ∃ str, i = .fromBin str ∧ ¬ Accepted binval 256 str) ∧
    (u.resp.err = 2 ↔
      (∃ v x, i = .limb v x ∧ 4 ≤ x.toNat) ∨ ∃ v x, i = .bitSet v x ∧ 256 ≤ x.toNat) ∧
    u.resp.err ≠ 3

/-! ### Construction -/

/-- FROMU64 (R100). -/
def Obligations.FromU64BuildsValue : Prop :=
  ∀ c : Command, decode { c with op := 0x0 } = .ok (.fromU64 c.x) ∧
    ∃ v : U256, Yields (.fromU64 c.x) v ∧ v.toNat = c.x.toNat ∧ limbVal v 0 = c.x.toNat ∧
      limbVal v 1 = 0 ∧ limbVal v 2 = 0 ∧ limbVal v 3 = 0

/-- FROMLIMBS (R101): limb i is the i-th argument, and the command is the identity on the port `A`. -/
def Obligations.FromLimbsAssignsLimbs : Prop :=
  (∀ a0 a1 a2 a3 : Limb, ∃ v : U256, Yields (.fromLimbs a0 a1 a2 a3) v ∧
    limbVal v 0 = a0.toNat ∧ limbVal v 1 = a1.toNat ∧ limbVal v 2 = a2.toNat ∧ limbVal v 3 = a3.toNat ∧
    v.toNat = a0.toNat + a1.toNat * 2 ^ 64 + a2.toNat * 2 ^ 128 + a3.toNat * 2 ^ 192) ∧
  ∀ c : Command, ∃ a0 a1 a2 a3 : Limb,
    decode { c with op := 0x1 } = .ok (.fromLimbs a0 a1 a2 a3) ∧ Yields (.fromLimbs a0 a1 a2 a3) c.a

/-! ### Strings to limbs -/

/-- The character table (R77). The ASCII codes and the digit values are the spec's general knowledge (G1, G2) and its own
decision D9, presumed in log entry 11. -/
def Obligations.CharacterTable : Prop :=
  (∀ ch : Byte,
    hexval ch =
      (if 0x30 ≤ ch ∧ ch ≤ 0x39 then some (ch.toNat - 0x30)
       else if 0x41 ≤ ch ∧ ch ≤ 0x46 then some (ch.toNat - 0x41 + 10)
       else if 0x61 ≤ ch ∧ ch ≤ 0x66 then some (ch.toNat - 0x61 + 10)
       else none) ∧
    binval ch = (if ch = 0x30 then some 0 else if ch = 0x31 then some 1 else none)) ∧
  ∀ d, d < 16 →
    hexchar d = (if d ≤ 9 then 0x30 + BitVec.ofNat 8 d else 0x61 + BitVec.ofNat 8 (d - 10)) ∧ hexval (hexchar d) = some d

/-- Validation (R110): a string is parsed if and only if it is not too long and every character is a digit; otherwise the
command raises ParseError and no value is returned. -/
def Obligations.ParsersAcceptExactlyDigitStrings : Prop :=
  ∀ str : Str,
    (Accepted hexval 64 str → ∃ v, Yields (.fromHex str) v) ∧ (¬ Accepted hexval 64 str → Raises (.fromHex str) 1) ∧
    (Accepted binval 256 str → ∃ v, Yields (.fromBin str) v) ∧ (¬ Accepted binval 256 str → Raises (.fromBin str) 1)

/-- FROMHEX (R112): limb j is the value of the j-th group of up to 16 characters from the right end. -/
def Obligations.FromHexBuildsLimbsFromGroups : Prop :=
  ∀ c : Command, decode { c with op := 0x2 } = .ok (.fromHex c.s) ∧
    (Accepted hexval 64 c.s →
      ∃ v : U256, Yields (.fromHex c.s) v ∧ ∀ j, j < 4 → limbVal v j = groupVal hexval 16 16 c.s j) ∧
    (¬ Accepted hexval 64 c.s → Raises (.fromHex c.s) 1)

/-- FROMBIN (R113): limb j is the value of the j-th group of up to 64 characters. -/
def Obligations.FromBinBuildsLimbsFromGroups : Prop :=
  ∀ c : Command, decode { c with op := 0x3 } = .ok (.fromBin c.s) ∧
    (Accepted binval 256 c.s →
      ∃ v : U256, Yields (.fromBin c.s) v ∧ ∀ j, j < 4 → limbVal v j = groupVal binval 2 64 c.s j) ∧
    (¬ Accepted binval 256 c.s → Raises (.fromBin c.s) 1)

/-- Bit i of what FROMBIN returns is the i-th character from the right, and 0 past the left end (the equivalent form in
R113, which the spec derives). -/
def Obligations.FromBinPlacesCharacters : Prop :=
  ∀ str : Str, Accepted binval 256 str → ∃ v : U256, Yields (.fromBin str) v ∧
    ∀ i, i < 256 → (v.getLsbD i = true ↔ i < str.length ∧ binval (str.getD (str.length - 1 - i) 0) = some 1)

/-- The result is the number the string denotes (R114, which the spec derives from R111), for both parsers. -/
def Obligations.ParsedValueIsNumeral : Prop :=
  ∀ str : Str,
    (Accepted hexval 64 str → ∃ v : U256, Yields (.fromHex str) v ∧ v.toNat = numeral hexval 16 str) ∧
    (Accepted binval 256 str → ∃ v : U256, Yields (.fromBin str) v ∧ v.toNat = numeral binval 2 str)

/-- The length test counts characters (R115): leading zeros within the limit change nothing, beyond it they reject, and
a string of zeros within the limit gives zero. -/
def Obligations.LengthTestCountsCharacters : Prop :=
  ∀ (n : Nat) (str : Str),
    (Accepted hexval 64 str → n + str.length ≤ 64 →
      ∃ v : U256, Yields (.fromHex str) v ∧ Yields (.fromHex (List.replicate n 0x30#8 ++ str)) v) ∧
    (64 < n + str.length → Raises (.fromHex (List.replicate n 0x30#8 ++ str)) 1) ∧
    (Accepted binval 256 str → n + str.length ≤ 256 →
      ∃ v : U256, Yields (.fromBin str) v ∧ Yields (.fromBin (List.replicate n 0x30#8 ++ str)) v) ∧
    (256 < n + str.length → Raises (.fromBin (List.replicate n 0x30#8 ++ str)) 1) ∧
    (n ≤ 64 → Yields (.fromHex (List.replicate n 0x30#8)) 0) ∧ (n ≤ 256 → Yields (.fromBin (List.replicate n 0x30#8)) 0)

/-! ### Limbs to a string -/

/-- TOHEX (R120): `"0"` for zero; otherwise the highest non-zero limb without padding and every lower limb with sixteen
digits, most significant first. -/
def Obligations.ToHexFormatsLimbs : Prop :=
  ∀ c : Command, decode { c with op := 0x4 } = .ok (.toHex c.a) ∧
    (c.a = 0 → YieldsT (.toHex c.a) [0x30#8]) ∧
    ∀ m : Nat, TopLimb c.a m →
      YieldsT (.toHex c.a) (dropZeros (sixteenDigits (limbVal c.a m)) ++
        (List.range m).reverse.flatMap fun i => sixteenDigits (limbVal c.a i))

/-- The output is the shortest hexadecimal numeral of the value, and the only string that is (R121, which the spec derives
from R120). -/
def Obligations.ToHexIsShortestNumeral : Prop :=
  ∀ v : U256, ∃ t : Str, YieldsT (.toHex v) t ∧ ShortestHex v.toNat t ∧ ∀ t' : Str, ShortestHex v.toNat t' → t' = t

/-- The length of the output (R123, which the spec derives from R120). -/
def Obligations.ToHexLength : Prop :=
  ∀ v : U256, ∃ t : Str, YieldsT (.toHex v) t ∧ 1 ≤ t.length ∧ t.length ≤ 64 ∧ (v = 0 → t.length = 1) ∧
    (v ≠ 0 → t.length = Nat.log2 v.toNat / 4 + 1) ∧
    ∀ m : Nat, TopLimb v m → t.length = 16 * m + Nat.log2 (limbVal v m) / 4 + 1

/-- The round trip (R122, which the spec derives from R121 and R114): parsing a formatted value gives the value, and formatting a parsed string its canonical
form. -/
def Obligations.HexRoundTrip : Prop :=
  (∀ v : U256, ∃ t : Str, YieldsT (.toHex v) t ∧ Yields (.fromHex t) v) ∧
  ∀ str : Str, Accepted hexval 64 str →
    ∃ v : U256, Yields (.fromHex str) v ∧ YieldsT (.toHex v) (canon str)

/-- Two values are equal exactly when their canonical strings are equal (R194, which the spec derives from R122). -/
def Obligations.ToHexIsInjective : Prop :=
  ∀ v w : U256, (∃ t : Str, YieldsT (.toHex v) t ∧ YieldsT (.toHex w) t) ↔ ∀ i, i < 4 → limbVal v i = limbVal w i

/-! ### Accessors -/

/-- LIMB (R130): the limb for an index 0..3, IndexError for every other index, compared in full width. -/
def Obligations.LimbReadsOneLimb : Prop :=
  ∀ c : Command, decode { c with op := 0x5 } = .ok (.limb c.a c.x) ∧
    (c.x.toNat ≤ 3 → ∃ q : BitVec 64, YieldsQ (.limb c.a c.x) q ∧ q.toNat = limbVal c.a c.x.toNat) ∧
    (3 < c.x.toNat → Raises (.limb c.a c.x) 2)

/-- BITSET (R131; that the bit travels in bit 0 of `Q` with the upper bits zero is the spec's own decision D16, log entry
11): the bit for an index 0..255, IndexError for every other index, compared in full width. -/
def Obligations.BitSetTestsOneBit : Prop :=
  ∀ c : Command, decode { c with op := 0x6 } = .ok (.bitSet c.a c.x) ∧
    (c.x.toNat ≤ 255 → YieldsQ (.bitSet c.a c.x) (if c.a.getLsbD c.x.toNat then 1 else 0)) ∧
    (255 < c.x.toNat → Raises (.bitSet c.a c.x) 2)

/-- The two accessors agree, and the bit tests determine the value (R132). -/
def Obligations.AccessorsAgree : Prop :=
  ∀ v : U256, ∃ f g : Nat → BitVec 64,
    (∀ i, i < 256 → YieldsQ (.bitSet v (BitVec.ofNat 64 i)) (f i)) ∧
    (∀ j, j < 4 → YieldsQ (.limb v (BitVec.ofNat 64 j)) (g j)) ∧
    (∀ i, i < 256 → f i = (g (i / 64) >>> (i % 64)) &&& 1#64) ∧
    v.toNat = ∑ i ∈ Finset.range 256, (f i).toNat * 2 ^ i

/-! ### Addition -/

/-- The limb step of the adder (R141). -/
def Obligations.AdderLimbStep : Prop :=
  ∀ (x y : Limb) (cin : BitVec 1),
    (addStep x y cin).1.toNat = (x.toNat + y.toNat + cin.toNat) % 2 ^ 64 ∧
    (addStep x y cin).2.toNat = (x.toNat + y.toNat + cin.toNat) / 2 ^ 64 ∧
    ((addStep x y cin).2 = 1 ↔ 2 ^ 64 ≤ x.toNat + y.toNat + cin.toNat)

/-- The carry-out accounts for the carry-in (R143, which the spec derives from R141): the two-step form of it, and the four
rows that show why comparing the sum with the operands alone is no test. -/
def Obligations.CarryOutCountsCarryIn : Prop :=
  (∀ (x y : Limb) (cin : BitVec 1),
    (addStep x y cin).1 = x + y + cin.setWidth 64 ∧
    ((addStep x y cin).2 = 1 ↔ x + y < x ∨ x + y + cin.setWidth 64 < x + y) ∧
    ¬ (x + y < x ∧ x + y + cin.setWidth 64 < x + y)) ∧
  (addStep (BitVec.allOnes 64) (BitVec.allOnes 64) 1 = (BitVec.allOnes 64, 1) ∧
    addStep 5 (BitVec.allOnes 64) 1 = (5, 1) ∧ addStep (BitVec.allOnes 64) 0 1 = (0, 1) ∧ addStep 0 0 1 = (1, 0)) ∧
  ¬ BitVec.allOnes 64 < BitVec.allOnes 64 ∧ ¬ (5 : Limb) < 5 ∧ (5 : Limb) < BitVec.allOnes 64 ∧
  (0 : Limb) < BitVec.allOnes 64 ∧ ¬ (0 : Limb) < 0 ∧ ¬ (1 : Limb) < 0

/-- ADD (R140): the limbs follow the carry chain from carry-in 0, and the result is the sum modulo 2^256. -/
def Obligations.AddFollowsCarryChain : Prop :=
  ∀ c : Command, decode { c with op := 0x7 } = .ok (.add c.a c.b) ∧
    ∃ (v : U256) (carry : Nat → Nat), Yields (.add c.a c.b) v ∧ carry 0 = 0 ∧
      (∀ i, i < 4 →
        limbVal v i = (limbVal c.a i + limbVal c.b i + carry i) % 2 ^ 64 ∧
        carry (i + 1) = (limbVal c.a i + limbVal c.b i + carry i) / 2 ^ 64) ∧
      v.toNat = (c.a.toNat + c.b.toNat) % 2 ^ 256

/-- The discarded last carry is what the result lacks of the true sum (R142, which the spec derives from R140). -/
def Obligations.LastCarryIsQuotient : Prop :=
  ∀ a b : U256, ∃ v : U256, Yields (.add a b) v ∧ ∀ carry : Nat → Nat, carry 0 = 0 →
    (∀ i, i < 4 → carry (i + 1) = (limbVal a i + limbVal b i + carry i) / 2 ^ 64) →
    a.toNat + b.toNat = v.toNat + carry 4 * 2 ^ 256 ∧ carry 4 = (a.toNat + b.toNat) / 2 ^ 256

/-- Addition is commutative and associative, and zero is its identity on both sides (R183, R184, R185). -/
def Obligations.AdditionLaws : Prop :=
  (∀ a b : U256, ∃ v, Yields (.add a b) v ∧ Yields (.add b a) v) ∧
  (∀ a b c : U256, ∃ ab bc v, Yields (.add a b) ab ∧ Yields (.add b c) bc ∧
    Yields (.add ab c) v ∧ Yields (.add a bc) v ∧ v.toNat = (a.toNat + b.toNat + c.toNat) % 2 ^ 256) ∧
  ∃ z : U256, Yields (.fromU64 0) z ∧ ∀ a : U256, Yields (.add a z) a ∧ Yields (.add z a) a

/-! ### Subtraction -/

/-- The limb step of the subtractor (R151). -/
def Obligations.SubtractorLimbStep : Prop :=
  ∀ (x y : Limb) (bin : BitVec 1),
    ((subStep x y bin).1.toNat : Int) = ((x.toNat : Int) - y.toNat - bin.toNat) % 2 ^ 64 ∧
    ((subStep x y bin).2 = 1 ↔ (x.toNat : Int) - y.toNat - bin.toNat < 0) ∧
    ((subStep x y bin).2 = 1 ↔ x.toNat < y.toNat + bin.toNat)

/-- SUB (R150): the limbs follow the borrow chain from borrow-in 0, the result is the difference modulo 2^256, and the last
borrow says whether a is below b. -/
def Obligations.SubFollowsBorrowChain : Prop :=
  ∀ c : Command, decode { c with op := 0x8 } = .ok (.sub c.a c.b) ∧
    ∃ (v : U256) (bw : Nat → Int), Yields (.sub c.a c.b) v ∧ bw 0 = 0 ∧
      (∀ i, i < 4 →
        (limbVal v i : Int) = (if (limbVal c.a i : Int) - limbVal c.b i - bw i < 0
          then (limbVal c.a i : Int) - limbVal c.b i - bw i + 2 ^ 64 else (limbVal c.a i : Int) - limbVal c.b i - bw i) ∧
        bw (i + 1) = if (limbVal c.a i : Int) - limbVal c.b i - bw i < 0 then 1 else 0) ∧
      (v.toNat : Int) = ((c.a.toNat : Int) - c.b.toNat) % 2 ^ 256 ∧ (bw 4 = 1 ↔ c.a.toNat < c.b.toNat)

/-- The discarded last borrow is what the result exceeds the true difference by (R152, which the spec derives from
R150). -/
def Obligations.LastBorrowIsQuotient : Prop :=
  ∀ a b : U256, ∃ v : U256, Yields (.sub a b) v ∧ ∀ bw : Nat → Int, bw 0 = 0 →
    (∀ i, i < 4 → bw (i + 1) = if (limbVal a i : Int) - limbVal b i - bw i < 0 then 1 else 0) →
    (a.toNat : Int) - b.toNat = v.toNat - bw 4 * 2 ^ 256 ∧ bw 4 = -(((a.toNat : Int) - b.toNat) / 2 ^ 256)

/-- Consequences for subtraction (R188), with the exact cases in which the operands may be exchanged. -/
def Obligations.SubtractionLaws : Prop :=
  (∀ a b : U256, ∃ v n w, Yields (.sub a b) v ∧ Yields (.add v b) a ∧
    Yields (.sub 0 b) n ∧ Yields (.add a n) v ∧ Yields (.add a b) w ∧ Yields (.sub w b) a) ∧
  (∀ a : U256, Yields (.sub a a) 0 ∧ Yields (.sub a 0) a) ∧
  (∃ one : U256, Yields (.fromU64 1) one ∧ Yields (.sub 0 one) (BitVec.allOnes 256)) ∧
  (∀ a b : U256, (∃ v, Yields (.sub a b) v ∧ Yields (.sub b a) v) ↔
    ((a.toNat : Int) - b.toNat) % 2 ^ 256 = 0 ∨ ((a.toNat : Int) - b.toNat) % 2 ^ 256 = 2 ^ 255) ∧
  ∃ a b c ab bc v w : U256, Yields (.sub a b) ab ∧ Yields (.sub ab c) v ∧
    Yields (.sub b c) bc ∧ Yields (.sub a bc) w ∧ v ≠ w

/-- Negation (R153, R80; the spec's own decisions D22 and D23, and the complement form is its general knowledge): `NEG b` gives the one value whose sum with b is zero, `2^256 - val(b)` modulo 2^256, which is
the complement plus one; and SUB adds it. -/
def Obligations.NegationMakesSubtraction : Prop :=
  Yields pseudoZero 0 ∧
  ∀ b : U256, ∃ n : U256, Yields (pseudoNeg b) n ∧ n.toNat = (2 ^ 256 - b.toNat) % 2 ^ 256 ∧ n = ~~~b + 1 ∧
    (∀ m : U256, Yields (.add m b) 0 ↔ m = n) ∧ (b = 0 → n = 0) ∧
    ∀ a : U256, ∃ v, Yields (.sub a b) v ∧ Yields (.add a n) v

/-! ### Shift -/

/-- SHL (R160): bit k of the result is bit k - X of the operand, zero below X, for the whole of `X` without reduction. -/
def Obligations.ShlMovesBits : Prop :=
  ∀ c : Command, decode { c with op := 0x9 } = .ok (.shl c.a c.x) ∧
    ∃ v : U256, Yields (.shl c.a c.x) v ∧
      (∀ k, k < 256 → v.getLsbD k = (decide (c.x.toNat ≤ k) && c.a.getLsbD (k - c.x.toNat))) ∧
      (256 ≤ c.x.toNat → v = 0) ∧ v.toNat = c.a.toNat * 2 ^ c.x.toNat % 2 ^ 256

/-- The direct limb algorithm (R161, the spec's own reading of the source): each limb joins two parts that share no set bit. -/
def Obligations.ShlFollowsLimbAlgorithm : Prop :=
  ∀ (a : U256) (x : BitVec 64), ∃ v : U256, Yields (.shl a x) v ∧
    ∀ i : Nat, i < 4 → ∃ upper lower : Nat,
      upper = srcVal a ((i : Int) - (x.toNat / 64 : Nat)) * 2 ^ (x.toNat % 64) % 2 ^ 64 ∧
      lower = (if x.toNat % 64 = 0 then 0
        else srcVal a ((i : Int) - (x.toNat / 64 : Nat) - 1) / 2 ^ (64 - x.toNat % 64)) ∧
      limbVal v i = upper ||| lower ∧ upper &&& lower = 0

/-- The shifter multiplies by a power of two, and shifts add up (R162, R164, which the spec derives), for every natural amount; a limb stage and a
bit stage, in either order, make the whole shift. -/
def Obligations.ShiftsMultiplyAndCompose : Prop :=
  (∀ (v : U256) (n : BitVec 64), Yields (.shl v n) (shifter v n.toNat)) ∧
  (∀ (v : U256) (n : Nat), (shifter v n).toNat = v.toNat * 2 ^ n % 2 ^ 256) ∧
  (∀ (v : U256) (m n : Nat), shifter (shifter v m) n = shifter v (m + n)) ∧
  (∀ (v : U256) (n : Nat), shifter (shifter v (64 * (n / 64))) (n % 64) = shifter v n ∧
    shifter (shifter v (n % 64)) (64 * (n / 64)) = shifter v n) ∧
  (∀ (v : U256) (w i : Nat), i < 4 → limbVal (shifter v (64 * w)) i = srcVal v ((i : Int) - w)) ∧
  ∀ (v : U256) (b i : Nat), b < 64 → i < 4 →
    limbVal (shifter v b) i = limbVal v i * 2 ^ b % 2 ^ 64 + srcVal v ((i : Int) - 1) / 2 ^ (64 - b)

/-- Shift boundaries and the shift's relation to ADD and MUL (R187). -/
def Obligations.ShiftLaws : Prop :=
  (∀ v : U256, Yields (.shl v 0) v) ∧
  (∀ (v : U256) (n : BitVec 64), 256 ≤ n.toNat → Yields (.shl v n) 0) ∧
  (∀ v : U256, ∃ w, Yields (.shl v 1) w ∧ Yields (.add v v) w) ∧
  ∀ (v : U256) (n : BitVec 64), ∃ one p w : U256, Yields (.fromU64 1) one ∧ Yields (.shl one n) p ∧
    Yields (.shl v n) w ∧ Yields (.mul v p) w

/-- SHL distributes over ADD (R189, which the spec derives from R181). -/
def Obligations.ShiftDistributesOverAddition : Prop :=
  ∀ (a b : U256) (n : BitVec 64), ∃ ab sa sb w : U256, Yields (.add a b) ab ∧ Yields (.shl a n) sa ∧
    Yields (.shl b n) sb ∧ Yields (.shl ab n) w ∧ Yields (.add sa sb) w ∧
    w.toNat = (a.toNat + b.toNat) * 2 ^ n.toNat % 2 ^ 256

/-- The string cross-check of the shifter (the law in R163, which the spec derives): cutting n digits off the left of the binary numeral and appending n
zeros, parsed by FROMBIN, is the shift. -/
def Obligations.ShiftAgreesWithBinaryStrings : Prop :=
  ∀ (v : U256) (n : Nat), n ≤ 255 → ∃ w : U256, Yields (.shl v (BitVec.ofNat 64 n)) w ∧
    Yields (.fromBin ((bin256 v).drop n ++ List.replicate n 0x30#8)) w

/-! ### Multiplication -/

/-- MUL (R170): the accumulator starts at zero, each set bit of the multiplier adds the shifted multiplicand by the unit's
own ADD and SHL, the bit being the one BITSET reports, and the 256-th accumulator is the result, the product modulo
2^256. -/
def Obligations.MulAccumulatesShiftedMultiplicand : Prop :=
  ∀ c : Command, decode { c with op := 0xA } = .ok (.mul c.a c.b) ∧
    ∃ acc : Nat → U256, acc 0 = 0 ∧
      (∀ i, i < 256 → ∃ q, YieldsQ (.bitSet c.b (BitVec.ofNat 64 i)) q ∧
        (q = 1 → ∃ w, Yields (.shl c.a (BitVec.ofNat 64 i)) w ∧ Yields (.add (acc i) w) (acc (i + 1))) ∧
        (q ≠ 1 → acc (i + 1) = acc i)) ∧
      Yields (.mul c.a c.b) (acc 256) ∧ (acc 256).toNat = c.a.toNat * c.b.toNat % 2 ^ 256

/-- The multiplier's loop invariant (R171, which the spec derives from R170): after i steps the accumulator is the product
with the low i bits of the multiplier. -/
def Obligations.MulLoopInvariant : Prop :=
  ∀ (a b : U256) (acc : Nat → U256), acc 0 = 0 →
    (∀ i, i < 256 → ∃ w, Yields (.shl a (BitVec.ofNat 64 i)) w ∧
      if b.getLsbD i then Yields (.add (acc i) w) (acc (i + 1)) else acc (i + 1) = acc i) →
    (∀ i, i ≤ 256 → (acc i).toNat = a.toNat * (b.toNat % 2 ^ i) % 2 ^ 256) ∧ Yields (.mul a b) (acc 256)

/-- The multiplier computes multiplication modulo 2^256 (R172, which the spec derives from R171). -/
def Obligations.MulIsProductModulo : Prop :=
  ∀ a b : U256, ∃ v : U256, Yields (.mul a b) v ∧ v.toNat = a.toNat * b.toNat % 2 ^ 256

/-- Multiplication is repeated addition (R191). -/
def Obligations.MulIsRepeatedAddition : Prop :=
  ∀ a : U256, ∃ sum : Nat → U256, sum 0 = 0 ∧ (∀ k, Yields (.add (sum k) a) (sum (k + 1))) ∧
    ∀ x : BitVec 64, ∃ b : U256, Yields (.fromU64 x) b ∧ Yields (.mul a b) (sum x.toNat)

/-- Multiplying by one and by zero, on either side (R190). -/
def Obligations.MulByOneAndZero : Prop :=
  ∃ one zero : U256, Yields (.fromU64 1) one ∧ Yields (.fromU64 0) zero ∧ ∀ a : U256,
    Yields (.mul a one) a ∧ Yields (.mul one a) a ∧ Yields (.mul a zero) zero ∧ Yields (.mul zero a) zero

/-- Commutativity, associativity and the distributive laws of multiplication (R193, which the spec derives from R181). -/
def Obligations.MultiplicationLaws : Prop :=
  (∀ a b : U256, ∃ v, Yields (.mul a b) v ∧ Yields (.mul b a) v) ∧
  (∀ a b c : U256, ∃ ab bc v, Yields (.mul a b) ab ∧ Yields (.mul b c) bc ∧
    Yields (.mul ab c) v ∧ Yields (.mul a bc) v) ∧
  ∀ a b c : U256, ∃ ab ac s d v w, Yields (.mul a b) ab ∧ Yields (.mul a c) ac ∧
    Yields (.add b c) s ∧ Yields (.mul a s) v ∧ Yields (.add ab ac) v ∧
    Yields (.sub b c) d ∧ Yields (.mul a d) w ∧ Yields (.sub ab ac) w
end

