-- ==== Sys2Proof/Laws/Limbs.lean ====
section
/-! SUPPORT. Limbs, bits and the value of a limb tuple: what `limb`, `ofLimbs` and `bitOf` do. -/

namespace Sys2Proof.Machine

theorem limb_toNat (v : U256) (i : Nat) : (limb v i).toNat = limbVal v i := by
  simp [limb, limbVal, BitVec.extractLsb'_toNat, Nat.shiftRight_eq_div_pow]

theorem limbVal_lt (v : U256) (i : Nat) : limbVal v i < 2 ^ 64 := Nat.mod_lt _ (by decide)

theorem toNat_ofLimbs (l0 l1 l2 l3 : Limb) :
    (ofLimbs l0 l1 l2 l3).toNat = l0.toNat + l1.toNat * 2 ^ 64 + l2.toNat * 2 ^ 128 + l3.toNat * 2 ^ 192 := by
  have h0 := l0.isLt
  have h1 := l1.isLt
  have h2 := l2.isLt
  have e : ofLimbs l0 l1 l2 l3 = l3 ++ l2 ++ l1 ++ l0 := rfl
  rw [e, BitVec.toNat_append, BitVec.toNat_append, BitVec.toNat_append,
    ← Nat.shiftLeft_add_eq_or_of_lt h0, ← Nat.shiftLeft_add_eq_or_of_lt h1, ← Nat.shiftLeft_add_eq_or_of_lt h2]
  simp only [Nat.shiftLeft_eq]
  omega

/-- A value is the sum of its limbs (R20). -/
theorem toNat_eq_limbs (v : U256) :
    v.toNat = limbVal v 0 + limbVal v 1 * 2 ^ 64 + limbVal v 2 * 2 ^ 128 + limbVal v 3 * 2 ^ 192 := by
  have h := v.isLt
  simp only [limbVal]
  omega

theorem limbVal_ofLimbs (l0 l1 l2 l3 : Limb) :
    limbVal (ofLimbs l0 l1 l2 l3) 0 = l0.toNat ∧ limbVal (ofLimbs l0 l1 l2 l3) 1 = l1.toNat ∧
    limbVal (ofLimbs l0 l1 l2 l3) 2 = l2.toNat ∧ limbVal (ofLimbs l0 l1 l2 l3) 3 = l3.toNat := by
  have h0 := l0.isLt
  have h1 := l1.isLt
  have h2 := l2.isLt
  have h3 := l3.isLt
  simp only [limbVal, toNat_ofLimbs]
  omega

@[simp] theorem ofLimbs_limb (v : U256) : ofLimbs (limb v 0) (limb v 1) (limb v 2) (limb v 3) = v := by
  apply BitVec.eq_of_toNat_eq
  rw [toNat_ofLimbs]
  simp only [limb_toNat]
  exact (toNat_eq_limbs v).symm

@[simp] theorem limb_ofLimbs_0 (l0 l1 l2 l3 : Limb) : limb (ofLimbs l0 l1 l2 l3) 0 = l0 :=
  BitVec.eq_of_toNat_eq (by rw [limb_toNat, (limbVal_ofLimbs l0 l1 l2 l3).1])
@[simp] theorem limb_ofLimbs_1 (l0 l1 l2 l3 : Limb) : limb (ofLimbs l0 l1 l2 l3) 1 = l1 :=
  BitVec.eq_of_toNat_eq (by rw [limb_toNat, (limbVal_ofLimbs l0 l1 l2 l3).2.1])
@[simp] theorem limb_ofLimbs_2 (l0 l1 l2 l3 : Limb) : limb (ofLimbs l0 l1 l2 l3) 2 = l2 :=
  BitVec.eq_of_toNat_eq (by rw [limb_toNat, (limbVal_ofLimbs l0 l1 l2 l3).2.2.1])
@[simp] theorem limb_ofLimbs_3 (l0 l1 l2 l3 : Limb) : limb (ofLimbs l0 l1 l2 l3) 3 = l3 :=
  BitVec.eq_of_toNat_eq (by rw [limb_toNat, (limbVal_ofLimbs l0 l1 l2 l3).2.2.2])

theorem ofLimbs_zero : ofLimbs 0 0 0 0 = 0 := by decide +kernel

theorem limb_getLsbD (v : U256) (i p : Nat) : (limb v i).getLsbD p = (decide (p < 64) && v.getLsbD (64 * i + p)) := by
  simp [limb, BitVec.getLsbD_extractLsb']

theorem ofLimbs_getLsbD (l0 l1 l2 l3 : Limb) (k : Nat) :
    (ofLimbs l0 l1 l2 l3).getLsbD k =
      if k < 64 then l0.getLsbD k else if k < 128 then l1.getLsbD (k - 64)
      else if k < 192 then l2.getLsbD (k - 128) else l3.getLsbD (k - 192) := by
  have e : ofLimbs l0 l1 l2 l3 = l3 ++ l2 ++ l1 ++ l0 := rfl
  rw [e]
  simp only [BitVec.getLsbD_append, Nat.sub_sub]
  by_cases h0 : k < 64
  · simp [h0]
  by_cases h1 : k < 128
  · have : k - 64 < 64 := by omega
    simp [h0, h1, this]
  have h1' : ¬ k - 64 < 64 := by omega
  by_cases h2 : k < 192
  · have : k - 128 < 64 := by omega
    simp [h0, h1, h1', h2, this]
  · have : ¬ k - 128 < 64 := by omega
    simp [h0, h1, h1', h2, this]

/-- The bit test reads bit i of the value (R131). -/
theorem bitOf_eq (v : U256) (i : Nat) : bitOf v i = if v.getLsbD i then 1 else 0 := by
  apply BitVec.eq_of_getLsbD_eq
  intro p hp
  have hi : 64 * (i / 64) + i % 64 = i := Nat.div_add_mod i 64
  have hm : i % 64 < 64 := Nat.mod_lt _ (by decide)
  rcases Nat.eq_zero_or_pos p with rfl | h0
  · have h : (bitOf v i).getLsbD 0 = (limb v (i / 64)).getLsbD (i % 64) := by
      simp [bitOf, hm]
    rw [limb_getLsbD, hi] at h
    simp only [hm, decide_true, Bool.true_and] at h
    rw [h]
    split <;> simp [*]
  · have h : (bitOf v i).getLsbD p = false := by
      simp [bitOf, BitVec.getLsbD_one]
      omega
    rw [h]
    split
    · simp [BitVec.getLsbD_one]; omega
    · simp

end Sys2Proof.Machine
end

