-- ==== Sys2Proof/Laws/Arith.lean ====
section
/-! SUPPORT. What the adder, the subtractor, the shifter and the multiplier compute, whatever the working registers hold
on entry: the operations on 256-bit words (R142, R152, R162, R172). -/

namespace Sys2Proof.Machine

/-! ### Adder -/

/-- The sum word and the carry-out make up the true sum (R141). -/
theorem addStep_spec (x y : Limb) (c : BitVec 1) :
    (addStep x y c).1.toNat + 2 ^ 64 * (addStep x y c).2.toNat = x.toNat + y.toNat + c.toNat := by
  have hx := x.isLt
  have hy := y.isLt
  have hc := c.isLt
  simp only [addStep, BitVec.toNat_ofNat]
  omega

/-- The adder computes addition, and its carry register ends with the discarded carry (R142). -/
theorem adder_spec (a b : U256) (w : Work) :
    (adder a b w).1.toNat + 2 ^ 256 * (adder a b w).2.c.toNat = a.toNat + b.toNat := by
  have ha := toNat_eq_limbs a
  have hb := toNat_eq_limbs b
  have h0 := addStep_spec (limb a 0) (limb b 0) 0
  generalize e0 : addStep (limb a 0) (limb b 0) 0 = p0 at h0
  have h1 := addStep_spec (limb a 1) (limb b 1) p0.2
  generalize e1 : addStep (limb a 1) (limb b 1) p0.2 = p1 at h1
  have h2 := addStep_spec (limb a 2) (limb b 2) p1.2
  generalize e2 : addStep (limb a 2) (limb b 2) p1.2 = p2 at h2
  have h3 := addStep_spec (limb a 3) (limb b 3) p2.2
  generalize e3 : addStep (limb a 3) (limb b 3) p2.2 = p3 at h3
  simp only [adder, addLimb, e0, e1, e2, e3, toNat_ofLimbs]
  have z : (0 : BitVec 1).toNat = 0 := rfl
  simp only [limb_toNat, z] at h0 h1 h2 h3
  omega

theorem adder_eq (a b : U256) (w : Work) : (adder a b w).1 = a + b := by
  apply BitVec.eq_of_toNat_eq
  have h := adder_spec a b w
  have hr := (adder a b w).1.isLt
  rw [BitVec.toNat_add]
  omega

/-- The adder touches no working register but the carry. -/
theorem adder_keeps (a b : U256) (w : Work) :
    (adder a b w).2.bw = w.bw ∧ (adder a b w).2.acc = w.acc ∧ (adder a b w).2.idx = w.idx ∧ (adder a b w).2.cur = w.cur :=
  ⟨rfl, rfl, rfl, rfl⟩

/-! ### Subtractor -/

/-- The difference word and the borrow-out make up the true difference (R151). -/
theorem subStep_spec (x y : Limb) (c : BitVec 1) :
    ((subStep x y c).1.toNat : Int) - 2 ^ 64 * (subStep x y c).2.toNat = (x.toNat : Int) - y.toNat - c.toNat := by
  have hx := x.isLt
  have hy := y.isLt
  have hc := c.isLt
  have z : (0 : BitVec 1).toNat = 0 := rfl
  have o : (1 : BitVec 1).toNat = 1 := rfl
  simp only [subStep]
  split
  · simp only [BitVec.toNat_ofNat, o]
    omega
  · simp only [BitVec.toNat_ofNat, z]
    omega

/-- The subtractor computes subtraction, and its borrow register ends with the discarded borrow (R152). -/
theorem subtractor_spec (a b : U256) (w : Work) :
    ((subtractor a b w).1.toNat : Int) - 2 ^ 256 * (subtractor a b w).2.bw.toNat = (a.toNat : Int) - b.toNat := by
  have ha := toNat_eq_limbs a
  have hb := toNat_eq_limbs b
  have h0 := subStep_spec (limb a 0) (limb b 0) 0
  generalize e0 : subStep (limb a 0) (limb b 0) 0 = p0 at h0
  have h1 := subStep_spec (limb a 1) (limb b 1) p0.2
  generalize e1 : subStep (limb a 1) (limb b 1) p0.2 = p1 at h1
  have h2 := subStep_spec (limb a 2) (limb b 2) p1.2
  generalize e2 : subStep (limb a 2) (limb b 2) p1.2 = p2 at h2
  have h3 := subStep_spec (limb a 3) (limb b 3) p2.2
  generalize e3 : subStep (limb a 3) (limb b 3) p2.2 = p3 at h3
  simp only [subtractor, subLimb, e0, e1, e2, e3, toNat_ofLimbs]
  have z : (0 : BitVec 1).toNat = 0 := rfl
  simp only [limb_toNat, z] at h0 h1 h2 h3
  omega

theorem subtractor_eq (a b : U256) (w : Work) : (subtractor a b w).1 = a - b := by
  apply BitVec.eq_of_toNat_eq
  have h := subtractor_spec a b w
  have hr := (subtractor a b w).1.isLt
  have ha := a.isLt
  have hb := b.isLt
  rw [BitVec.toNat_sub]
  omega

/-! ### Shifter -/

theorem srcLimb_getLsbD (v : U256) (i w p : Nat) :
    (srcLimb v i w).getLsbD p = (decide (w ≤ i) && decide (p < 64) && v.getLsbD (64 * (i - w) + p)) := by
  simp only [srcLimb]
  split
  · rename_i h
    simp [limb_getLsbD, h]
  · rename_i h
    simp [h]

/-- Bit p of limb i of the shifted value is bit `64*i + p - n` of the operand (R162). -/
theorem shlLimb_getLsbD (v : U256) (n i p : Nat) (hp : p < 64) :
    (shlLimb v n i).getLsbD p = (decide (n ≤ 64 * i + p) && v.getLsbD (64 * i + p - n)) := by
  have hn : 64 * (n / 64) + n % 64 = n := Nat.div_add_mod n 64
  have hb : n % 64 < 64 := Nat.mod_lt _ (by decide)
  have key : ∀ w b, b < 64 → n = 64 * w + b →
      (decide (p < 64) && !decide (p < b) && (srcLimb v i w).getLsbD (p - b) ||
        (if b = 0 then (0 : Limb) else srcLimb v i (w + 1) >>> (64 - b)).getLsbD p) =
      (decide (n ≤ 64 * i + p) && v.getLsbD (64 * i + p - n)) := by
    intro w b hb hn
    have hlow : (if b = 0 then (0 : Limb) else srcLimb v i (w + 1) >>> (64 - b)).getLsbD p =
        (decide (b ≠ 0) && (srcLimb v i (w + 1)).getLsbD (64 - b + p)) := by
      split <;> rename_i h <;> simp [h]
    rw [hlow, srcLimb_getLsbD, srcLimb_getLsbD]
    by_cases hpb : p < b
    · have e1 : decide (b ≠ 0) = true := by simp; omega
      have e2 : 64 - b + p < 64 := by omega
      by_cases hwi : w + 1 ≤ i
      · have e3 : 64 * (i - (w + 1)) + (64 - b + p) = 64 * i + p - n := by omega
        have e4 : n ≤ 64 * i + p := by omega
        simp [hpb, e1, e2, hwi, e3, e4]
      · have e4 : ¬ n ≤ 64 * i + p := by omega
        simp [hpb, hwi, e4]
    · have e2 : decide (b ≠ 0) = false ∨ ¬ 64 - b + p < 64 := by
        by_cases h : b = 0
        · simp [h]
        · right; omega
      by_cases hwi : w ≤ i
      · have e3 : 64 * (i - w) + (p - b) = 64 * i + p - n := by omega
        have e4 : n ≤ 64 * i + p := by omega
        have e5 : p - b < 64 := by omega
        rcases e2 with e2 | e2 <;> simp [hpb, hp, hwi, e2, e3, e4, e5]
      · have e4 : ¬ n ≤ 64 * i + p := by omega
        have e5 : ¬ w + 1 ≤ i := by omega
        simp [hwi, e4, e5]
  have := key (n / 64) (n % 64) hb hn.symm
  rw [← this]
  simp only [shlLimb, BitVec.getLsbD_or, BitVec.getLsbD_shiftLeft]

/-- The shifter shifts the 256-bit word (R160, R162). -/
theorem shifter_eq (v : U256) (n : Nat) : shifter v n = v <<< n := by
  apply BitVec.eq_of_getLsbD_eq
  intro k hk
  rw [BitVec.getLsbD_shiftLeft, shifter, ofLimbs_getLsbD]
  have fin : ∀ i, 64 * i ≤ k → k < 64 * i + 64 →
      (shlLimb v n i).getLsbD (k - 64 * i) = (decide (k < 256) && !decide (k < n) && v.getLsbD (k - n)) := by
    intro i h1 h2
    rw [shlLimb_getLsbD v n i (k - 64 * i) (by omega)]
    have e : 64 * i + (k - 64 * i) = k := by omega
    rw [e]
    by_cases h : n ≤ k <;> simp [hk, h]
  split
  · simpa using fin 0 (by omega) (by omega)
  split
  · simpa using fin 1 (by omega) (by omega)
  split
  · simpa using fin 2 (by omega) (by omega)
  · simpa using fin 3 (by omega) (by omega)

theorem shifter_toNat (v : U256) (n : Nat) : (shifter v n).toNat = v.toNat * 2 ^ n % 2 ^ 256 := by
  rw [shifter_eq, BitVec.toNat_shiftLeft, Nat.shiftLeft_eq]

/-! ### Multiplier -/

theorem mulStep_idx (a b : U256) (w : Work) : (mulStep a b w).idx = w.idx + 1 := by
  simp only [mulStep]

theorem mulStep_acc (a b : U256) (w : Work) :
    (mulStep a b w).acc =
      if b.getLsbD w.idx.toNat then w.acc + a <<< w.idx.toNat else w.acc := by
  simp only [mulStep, bitOf_eq]
  by_cases h : b.getLsbD w.idx.toNat = true
  · simp [h, adder_eq, shifter_eq]
  · simp [h]

theorem mulLoop_idx (a b : U256) (w : Work) (n : Nat) (hn : n ≤ 256) : (mulLoop a b w n).idx.toNat = n := by
  induction n with
  | zero => rfl
  | succ n ih =>
    have h := ih (by omega)
    have e : (mulLoop a b w (n + 1)).idx = (mulLoop a b w n).idx + 1 := mulStep_idx _ _ _
    rw [e, BitVec.toNat_add, h]
    simp
    omega

/-- One pass of the loop, in terms of its position (R170). -/
theorem mulLoop_acc_succ (a b : U256) (w : Work) (n : Nat) (hn : n < 256) :
    (mulLoop a b w (n + 1)).acc =
      if b.getLsbD n then (mulLoop a b w n).acc + a <<< n else (mulLoop a b w n).acc := by
  have e : (mulLoop a b w (n + 1)).acc = _ := mulStep_acc a b (mulLoop a b w n)
  rw [e, mulLoop_idx a b w n (by omega)]

/-- The low n+1 bits of a number (R171). -/
theorem mod_two_pow_succ' (x n : Nat) : x % 2 ^ (n + 1) = x % 2 ^ n + 2 ^ n * (x.testBit n).toNat := by
  rw [Nat.mod_pow_succ, Nat.toNat_testBit]

/-- The loop invariant: the product with the low n bits of the multiplier (R171). -/
theorem mulLoop_acc (a b : U256) (w : Work) (n : Nat) (hn : n ≤ 256) :
    (mulLoop a b w n).acc.toNat = a.toNat * (b.toNat % 2 ^ n) % 2 ^ 256 := by
  induction n with
  | zero => simp [mulLoop, Nat.mod_one]
  | succ n ih =>
    have h := ih (by omega)
    have hs := mod_two_pow_succ' b.toNat n
    rw [mulLoop_acc_succ a b w n (by omega), hs]
    by_cases hb : b.getLsbD n = true
    · have ht : b.toNat.testBit n = true := hb
      rw [if_pos hb, ht, Bool.toNat_true, Nat.mul_one, BitVec.toNat_add, BitVec.toNat_shiftLeft, Nat.shiftLeft_eq, h,
        Nat.mul_add, ← Nat.add_mod]
    · have ht : b.toNat.testBit n = false := by
        cases h' : b.toNat.testBit n with
        | false => rfl
        | true => exact absurd h' hb
      rw [if_neg hb, ht, Bool.toNat_false, Nat.mul_zero, Nat.add_zero, h]

/-- The multiplier computes multiplication (R172). -/
theorem multiplier_eq (a b : U256) (w : Work) : (multiplier a b w).1 = a * b := by
  have h := mulLoop_acc a b w 256 (Nat.le_refl _)
  have e : (multiplier a b w).1 = (mulLoop a b w 256).acc := by simp only [multiplier, Config.mulSteps]
  rw [Nat.mod_eq_of_lt b.isLt, ← BitVec.toNat_mul, ← e] at h
  exact BitVec.eq_of_toNat_eq h

end Sys2Proof.Machine
end

