-- ==== Sys2Proof/Laws/Convert.lean ====
section
/-! SUPPORT. The string-to-limbs converter: the limbs built group by group are the whole string read as one numeral
(R111, R114), and validation is the spec's (R110). -/

namespace Sys2Proof.Machine

/-- A string read as one numeral, from the left. -/
def readFrom (f : DigitFormat) (acc : Nat) (str : Str) : Nat :=
  str.foldl (fun acc ch => acc * f.base + (f.dv ch).getD 0) acc

/-- A format whose group fills a limb, whose limit is four groups, and whose digits are below the base. -/
structure DigitFormat.Fits (f : DigitFormat) : Prop where
  full : f.base ^ f.group = 2 ^ 64
  four : f.maxLen = 4 * f.group
  digit : ∀ ch, (f.dv ch).getD 0 < f.base

theorem hexval_lt (ch : Byte) : (hexval ch).getD 0 < 16 := by
  have := ch.isLt
  simp only [hexval]
  repeat' split
  all_goals simp only [Option.getD_some, Option.getD_none]
  all_goals omega

theorem binval_lt (ch : Byte) : (binval ch).getD 0 < 2 := by
  simp only [binval]
  repeat' split
  all_goals simp

theorem hexFormat_fits : hexFormat.Fits := ⟨by decide, by decide, hexval_lt⟩
theorem binFormat_fits : binFormat.Fits := ⟨by decide, by decide, binval_lt⟩

/-- Validation accepts exactly the strings of R110. -/
theorem accepts_iff (f : DigitFormat) (str : Str) : accepts f str = true ↔ Accepted f.dv f.maxLen str := by
  simp only [accepts, Accepted, Bool.and_eq_true, decide_eq_true_eq, List.all_eq_true]
  refine and_congr_right fun _ => ⟨fun h k hk => ?_, fun h ch hch => ?_⟩
  · have hm := h _ (List.getElem_mem hk)
    rw [List.getD_eq_getElem _ _ hk]
    exact Option.isSome_iff_ne_none.mp hm
  · obtain ⟨k, hk, rfl⟩ := List.getElem_of_mem hch
    have := h k hk
    rw [List.getD_eq_getElem _ _ hk] at this
    exact Option.isSome_iff_ne_none.mpr this

theorem readFrom_eq (f : DigitFormat) (acc : Nat) (str : Str) :
    readFrom f acc str = acc * f.base ^ str.length + readFrom f 0 str := by
  induction str generalizing acc with
  | nil => simp [readFrom]
  | cons ch rest ih =>
    have h1 : ∀ a, readFrom f a (ch :: rest) = readFrom f (a * f.base + (f.dv ch).getD 0) rest := fun _ => rfl
    rw [h1, h1, ih, ih (0 * f.base + (f.dv ch).getD 0), List.length_cons, Nat.pow_succ]
    ring

theorem readFrom_append (f : DigitFormat) (xs ys : Str) :
    readFrom f 0 (xs ++ ys) = readFrom f 0 xs * f.base ^ ys.length + readFrom f 0 ys := by
  rw [← readFrom_eq]
  simp [readFrom, List.foldl_append]

theorem readFrom_lt (f : DigitFormat) (hf : f.Fits) (str : Str) : readFrom f 0 str < f.base ^ str.length := by
  induction str with
  | nil => simp [readFrom]
  | cons ch rest ih =>
    have h1 : readFrom f 0 (ch :: rest) = readFrom f (0 * f.base + (f.dv ch).getD 0) rest := rfl
    rw [h1, readFrom_eq, List.length_cons, Nat.pow_succ, Nat.zero_mul, Nat.zero_add]
    have hd := hf.digit ch
    calc (f.dv ch).getD 0 * f.base ^ rest.length + readFrom f 0 rest
        < (f.dv ch).getD 0 * f.base ^ rest.length + f.base ^ rest.length := by omega
      _ = ((f.dv ch).getD 0 + 1) * f.base ^ rest.length := by ring
      _ ≤ f.base * f.base ^ rest.length := Nat.mul_le_mul_right _ hd
      _ = f.base ^ rest.length * f.base := by ring

theorem base_pos (f : DigitFormat) (hf : f.Fits) : 0 < f.base := Nat.lt_of_le_of_lt (Nat.zero_le _) (hf.digit 0)

/-- A group holds at most `G` characters, so its value fits a limb. -/
theorem groupLimb_toNat (f : DigitFormat) (hf : f.Fits) (g : Str) (hg : g.length ≤ f.group) :
    (groupLimb f g).toNat = readFrom f 0 g := by
  have h : readFrom f 0 g < 2 ^ 64 := by
    rw [← hf.full]
    exact Nat.lt_of_lt_of_le (readFrom_lt f hf g) (Nat.pow_le_pow_right (base_pos f hf) hg)
  show (BitVec.ofNat 64 (readFrom f 0 g)).toNat = _
  rw [BitVec.toNat_ofNat, Nat.mod_eq_of_lt h]

/-- One group taken off the right end of the first `cur` characters (R111). -/
theorem readFrom_take (f : DigitFormat) (hf : f.Fits) (str : Str) (cur : Nat) (hc : cur ≤ str.length) :
    readFrom f 0 (str.take cur) =
      readFrom f 0 (str.take (cur - f.group)) * 2 ^ 64 + (groupLimb f ((str.take cur).drop (cur - f.group))).toNat := by
  have hsplit : str.take cur = str.take (cur - f.group) ++ (str.take cur).drop (cur - f.group) := by
    conv_lhs => rw [← List.take_append_drop (cur - f.group) (str.take cur)]
    rw [List.take_take, Nat.min_eq_left (by omega)]
  have hlen : ((str.take cur).drop (cur - f.group)).length = cur - (cur - f.group) := by
    rw [List.length_drop, List.length_take, Nat.min_eq_left hc]
  rw [groupLimb_toNat f hf _ (by rw [hlen]; omega)]
  conv_lhs => rw [hsplit, readFrom_append, hlen]
  by_cases h : f.group ≤ cur
  · have e : cur - (cur - f.group) = f.group := by omega
    rw [e, hf.full]
  · have e : cur - f.group = 0 := by omega
    simp [e, readFrom]

/-- The converter computes the number the string denotes (R114), whatever the cursor held. -/
theorem convert_toNat (f : DigitFormat) (hf : f.Fits) (str : Str) (w : Work) (hl : str.length ≤ f.maxLen) :
    (convert f str w).1.toNat = readFrom f 0 str := by
  have h4 := hf.four
  have h0 := readFrom_take f hf str str.length (Nat.le_refl _)
  have h1 := readFrom_take f hf str (str.length - f.group) (by omega)
  have h2 := readFrom_take f hf str (str.length - f.group - f.group) (by omega)
  have h3 := readFrom_take f hf str (str.length - f.group - f.group - f.group) (by omega)
  have hz : str.length - f.group - f.group - f.group - f.group = 0 := by omega
  rw [hz, List.take_zero] at h3
  have hn : readFrom f 0 [] = 0 := rfl
  rw [hn] at h3
  rw [List.take_length] at h0
  simp only [convert, takeGroup, toNat_ofLimbs, List.take_length, hz]
  omega

end Sys2Proof.Machine
end

