-- ==== Sys2Proof/Laws/Decode.lean ====
section
/-! SUPPORT. The opcode map row by row, and what the decoder reads from each opcode (R72, R74, R82). -/

namespace Sys2Proof

open Machine (limb)

/-! ### Rows -/

@[simp] theorem lookup_FROMU64 : lookup 0x0#4 = some ⟨0xF, 0x0, .FROMU64, .xR⟩ := by decide
@[simp] theorem lookup_FROMLIMBS : lookup 0x1#4 = some ⟨0xF, 0x1, .FROMLIMBS, .aR⟩ := by decide
@[simp] theorem lookup_FROMHEX : lookup 0x2#4 = some ⟨0xF, 0x2, .FROMHEX, .sR⟩ := by decide
@[simp] theorem lookup_FROMBIN : lookup 0x3#4 = some ⟨0xF, 0x3, .FROMBIN, .sR⟩ := by decide
@[simp] theorem lookup_TOHEX : lookup 0x4#4 = some ⟨0xF, 0x4, .TOHEX, .aT⟩ := by decide
@[simp] theorem lookup_LIMB : lookup 0x5#4 = some ⟨0xF, 0x5, .LIMB, .axQ⟩ := by decide
@[simp] theorem lookup_BITSET : lookup 0x6#4 = some ⟨0xF, 0x6, .BITSET, .axQ⟩ := by decide
@[simp] theorem lookup_ADD : lookup 0x7#4 = some ⟨0xF, 0x7, .ADD, .abR⟩ := by decide
@[simp] theorem lookup_SUB : lookup 0x8#4 = some ⟨0xF, 0x8, .SUB, .abR⟩ := by decide
@[simp] theorem lookup_SHL : lookup 0x9#4 = some ⟨0xF, 0x9, .SHL, .axR⟩ := by decide
@[simp] theorem lookup_MUL : lookup 0xA#4 = some ⟨0xF, 0xA, .MUL, .abR⟩ := by decide

/-- Opcodes 0xB to 0xF select no row (R74). -/
theorem lookup_reserved : ∀ op : BitVec 4, 0xB ≤ op.toNat → lookup op = none := by decide

/-- An opcode that selects a row is that row's pattern (R72). -/
theorem lookup_pattern : ∀ (op : BitVec 4) (row : OpRow), lookup op = some row → op = row.pattern := by
  intro op row h
  have hs := List.find?_some h
  have hm := List.mem_of_find?_eq_some h
  simp only [opcodeTable, List.mem_cons, List.not_mem_nil, or_false] at hm
  simp only [OpRow.selects, beq_iff_eq] at hs
  rw [← hs]
  rcases hm with rfl | rfl | rfl | rfl | rfl | rfl | rfl | rfl | rfl | rfl | rfl <;>
    exact (BitVec.and_allOnes (x := op)).symm

/-- The command assembled from a row's mnemonic has that mnemonic, whatever the port holds (R72). -/
@[simp] theorem assemble_mnemonic (m : Mnemonic) (c : Command) : (assemble m c).mnemonic = m := by cases m <;> rfl

/-- An opcode's row is the row of its mnemonic (R72). -/
theorem lookup_eq : ∀ (op : BitVec 4), op.toNat ≤ 0xA → ∃ m f, lookup op = some ⟨0xF, op, m, f⟩ ∧ m.opcode = op := by
  intro op h
  have : ∀ op : BitVec 4, op.toNat ≤ 0xA →
      (match lookup op with
        | some r => decide (r.mask = 0xF ∧ r.pattern = op ∧ r.mnemonic.opcode = op)
        | none => false) = true := by decide
  have h' := this op h
  cases hl : lookup op with
  | none => rw [hl] at h'; simp at h'
  | some r =>
    rw [hl] at h'
    obtain ⟨mask, pattern, m, f⟩ := r
    simp only [decide_eq_true_eq] at h'
    obtain ⟨rfl, rfl, h3⟩ := h'
    exact ⟨m, f, rfl, h3⟩

/-! ### Decoding -/

theorem decode_FROMU64 (c : Command) (h : c.op = 0x0#4) : decode c = .ok (.fromU64 c.x) := by
  simp [decode, h, assemble]
theorem decode_FROMLIMBS (c : Command) (h : c.op = 0x1#4) : decode c = .ok (.fromLimbs (limb c.a 0) (limb c.a 1) (limb c.a 2) (limb c.a 3)) := by
  simp [decode, h, assemble]
theorem decode_FROMHEX (c : Command) (h : c.op = 0x2#4) : decode c = .ok (.fromHex c.s) := by
  simp [decode, h, assemble]
theorem decode_FROMBIN (c : Command) (h : c.op = 0x3#4) : decode c = .ok (.fromBin c.s) := by
  simp [decode, h, assemble]
theorem decode_TOHEX (c : Command) (h : c.op = 0x4#4) : decode c = .ok (.toHex c.a) := by
  simp [decode, h, assemble]
theorem decode_LIMB (c : Command) (h : c.op = 0x5#4) : decode c = .ok (.limb c.a c.x) := by
  simp [decode, h, assemble]
theorem decode_BITSET (c : Command) (h : c.op = 0x6#4) : decode c = .ok (.bitSet c.a c.x) := by
  simp [decode, h, assemble]
theorem decode_ADD (c : Command) (h : c.op = 0x7#4) : decode c = .ok (.add c.a c.b) := by
  simp [decode, h, assemble]
theorem decode_SUB (c : Command) (h : c.op = 0x8#4) : decode c = .ok (.sub c.a c.b) := by
  simp [decode, h, assemble]
theorem decode_SHL (c : Command) (h : c.op = 0x9#4) : decode c = .ok (.shl c.a c.x) := by
  simp [decode, h, assemble]
theorem decode_MUL (c : Command) (h : c.op = 0xA#4) : decode c = .ok (.mul c.a c.b) := by
  simp [decode, h, assemble]

theorem decode_reserved (c : Command) (h : 0xB ≤ c.op.toNat) : decode c = .error (.reservedOpcode c.op) := by
  simp [decode, lookup_reserved c.op h]

end Sys2Proof
end

