-- ==== Sys2Proof/Laws/Format.lean ====
section
/-! SUPPORT. The formatter: how long its strings are and which characters they hold (R120, R123). -/

namespace Sys2Proof.Machine

theorem pad16_length (x : Limb) : (pad16 x).length = 16 := by simp [pad16]

theorem nopad_length_le (x : Limb) : (nopad x).length ≤ 16 := by
  have h := List.IsSuffix.length_le (List.dropWhile_suffix (l := pad16 x) (fun ch => ch == 0x30#8))
  rw [pad16_length] at h
  exact h

theorem paddedBelow_length (v : U256) (i : Nat) : (paddedBelow v i).length = 16 * i := by
  induction i with
  | zero => rfl
  | succ i ih => rw [paddedBelow, List.length_append, pad16_length, ih]; omega

theorem textFrom_length_le (v : U256) (i : Nat) : (textFrom v i).length ≤ 16 * (i + 1) := by
  induction i with
  | zero =>
    simp only [textFrom]
    split
    · simp
    · exact nopad_length_le _
  | succ i ih =>
    simp only [textFrom]
    split
    · omega
    · rw [List.length_append, paddedBelow_length]
      have := nopad_length_le (limb v (i + 1))
      omega

/-- The output never exceeds `T_MAX` characters (R123). -/
theorem hexText_length_le (v : U256) : (hexText v).length ≤ 64 := textFrom_length_le v 3

theorem hexchar_lowerHex (d : Nat) (h : d < 16) : LowerHex (hexchar d) := by
  simp only [LowerHex, hexchar]
  split <;> simp only [BitVec.toNat_ofNat] <;> omega

theorem pad16_lowerHex (x : Limb) : ∀ ch ∈ pad16 x, LowerHex ch := by
  intro ch hch
  obtain ⟨p, -, rfl⟩ := List.mem_map.mp hch
  exact hexchar_lowerHex _ (BitVec.isLt _)

theorem nopad_lowerHex (x : Limb) : ∀ ch ∈ nopad x, LowerHex ch :=
  fun ch hch => pad16_lowerHex x ch ((List.dropWhile_sublist _).subset hch)

theorem paddedBelow_lowerHex (v : U256) (i : Nat) : ∀ ch ∈ paddedBelow v i, LowerHex ch := by
  induction i with
  | zero => simp [paddedBelow]
  | succ i ih =>
    intro ch hch
    rcases List.mem_append.mp hch with h | h
    · exact pad16_lowerHex _ ch h
    · exact ih ch h

theorem textFrom_lowerHex (v : U256) (i : Nat) : ∀ ch ∈ textFrom v i, LowerHex ch := by
  induction i with
  | zero =>
    simp only [textFrom]
    split
    · intro ch hch
      rw [List.mem_singleton.mp hch]
      exact hexchar_lowerHex 0 (by decide)
    · exact nopad_lowerHex _
  | succ i ih =>
    simp only [textFrom]
    split
    · exact ih
    · intro ch hch
      rcases List.mem_append.mp hch with h | h
      · exact nopad_lowerHex _ ch h
      · exact paddedBelow_lowerHex v _ ch h

/-- The output holds only the characters `0-9a-f` (R121). -/
theorem hexText_lowerHex (v : U256) : ∀ ch ∈ hexText v, LowerHex ch := textFrom_lowerHex v 3

end Sys2Proof.Machine
end

