-- ==== Sys2Proof/Laws/State.lean ====
section
/-! SUPPORT. One lemma per field per update of `State`, so that no later proof unfolds a record update. -/

namespace Sys2Proof.Machine

/-! ### `complete` -/

@[simp] theorem complete_resp (s : State) (ρ : Response) : (s.complete ρ).resp = ρ := rfl
@[simp] theorem complete_work (s : State) (ρ : Response) : (s.complete ρ).work = Work.leftOver s.fresh := rfl
@[simp] theorem complete_port (s : State) (ρ : Response) : (s.complete ρ).port = s.port := rfl
@[simp] theorem complete_rst (s : State) (ρ : Response) : (s.complete ρ).rst = s.rst := rfl
@[simp] theorem complete_script (s : State) (ρ : Response) : (s.complete ρ).script = s.script := rfl
@[simp] theorem complete_fresh (s : State) (ρ : Response) : (s.complete ρ).fresh = s.fresh + 1 := rfl

/-! ### `resetUnit` -/

@[simp] theorem resetUnit_resp (s : State) : s.resetUnit.resp = Response.reset := rfl
@[simp] theorem resetUnit_work (s : State) : s.resetUnit.work = Work.leftOver s.fresh := rfl
@[simp] theorem resetUnit_port (s : State) : s.resetUnit.port = s.port := rfl
@[simp] theorem resetUnit_rst (s : State) : s.resetUnit.rst = s.rst := rfl
@[simp] theorem resetUnit_script (s : State) : s.resetUnit.script = s.script := rfl
@[simp] theorem resetUnit_fresh (s : State) : s.resetUnit.fresh = s.fresh + 1 := rfl

/-! ### `sample` -/

@[simp] theorem sample_resp (s : State) (c : Command) (l : List HostAction) : (s.sample c l).resp = s.resp := rfl
@[simp] theorem sample_work (s : State) (c : Command) (l : List HostAction) : (s.sample c l).work = s.work := rfl
@[simp] theorem sample_port (s : State) (c : Command) (l : List HostAction) : (s.sample c l).port = c := rfl
@[simp] theorem sample_rst (s : State) (c : Command) (l : List HostAction) : (s.sample c l).rst = s.rst := rfl
@[simp] theorem sample_script (s : State) (c : Command) (l : List HostAction) : (s.sample c l).script = l := rfl
@[simp] theorem sample_fresh (s : State) (c : Command) (l : List HostAction) : (s.sample c l).fresh = s.fresh := rfl

/-! ### `withNextCommand` -/

@[simp] theorem withNextCommand_resp (s : State) (c : Command) : (s.withNextCommand c).resp = s.resp := rfl
@[simp] theorem withNextCommand_work (s : State) (c : Command) : (s.withNextCommand c).work = s.work := rfl
@[simp] theorem withNextCommand_port (s : State) (c : Command) : (s.withNextCommand c).port = s.port := rfl
@[simp] theorem withNextCommand_rst (s : State) (c : Command) : (s.withNextCommand c).rst = false := rfl
@[simp] theorem withNextCommand_script (s : State) (c : Command) :
    (s.withNextCommand c).script = .present c :: s.script := rfl
@[simp] theorem withNextCommand_fresh (s : State) (c : Command) : (s.withNextCommand c).fresh = s.fresh := rfl

/-! ### `idle` and `setReset` -/

theorem idle_of_released {s : State} (h : s.rst = false) : s.idle = s := by simp [State.idle, h]
theorem idle_of_asserted {s : State} (h : s.rst = true) : s.idle = s.resetUnit := by simp [State.idle, h]

theorem setReset_true (s : State) (l : List HostAction) :
    s.setReset true l = { s.resetUnit with rst := true, script := l } := rfl

theorem setReset_false_of_asserted {s : State} (h : s.rst = true) (l : List HostAction) :
    s.setReset false l = { s.resetUnit with rst := false, script := l } := by simp [State.setReset, h]

theorem setReset_false_of_released {s : State} (h : s.rst = false) (l : List HostAction) :
    s.setReset false l = { s with script := l } := by simp [State.setReset, h]

end Sys2Proof.Machine
end

