-- ==== Sys2Proof/Laws/Ops.lean ====
section
/-! SUPPORT. What the four endings of a command leave in the response registers, and what a shared ending says of the
whole outcome. A meaning's result lemma cites these and unfolds nothing. -/

namespace Sys2Proof.Machine

theorem bufferOf_get (t : Str) (k : Fin 65) : (bufferOf t)[k] = t.getD k.val 0 := by
  simp [bufferOf]

theorem bufferOf_nil : bufferOf [] = Vector.replicate 65 0 := by decide

theorem bufferOf_take (t : Str) (h : t.length ≤ 65) : (bufferOf t).toList.take t.length = t := by
  apply List.ext_getElem
  · simp [h]
  · intro i h1 h2
    simp [bufferOf, h2]

theorem respIs_ofR (v : U256) : RespIs (Response.ofR v) 0 v 0 [] :=
  ⟨rfl, rfl, rfl, rfl, rfl, by decide, bufferOf_get []⟩

theorem respIs_ofQ (q : BitVec 64) : RespIs (Response.ofQ q) 0 0 q [] :=
  ⟨rfl, rfl, rfl, rfl, rfl, by decide, bufferOf_get []⟩

theorem respIs_ofError (e : Cause) : RespIs (Response.ofError e) e.code 0 0 [] :=
  ⟨rfl, rfl, rfl, rfl, rfl, by decide, bufferOf_get []⟩

theorem respIs_ofT (t : Str) (h : t.length ≤ 64) : RespIs (Response.ofT t) 0 0 0 t := by
  have hl : (BitVec.ofNat 7 t.length).toNat = t.length := by
    rw [BitVec.toNat_ofNat]; omega
  refine ⟨rfl, rfl, rfl, ?_, hl, h, bufferOf_get t⟩
  show (bufferOf t).toList.take (BitVec.ofNat 7 t.length).toNat = t
  rw [hl]; exact bufferOf_take t (by omega)

theorem respIs_reset : RespIs Response.reset 0 0 0 [] :=
  ⟨rfl, rfl, rfl, rfl, rfl, by decide, fun k => by simp [Response.reset]⟩

theorem hostKept_complete (s : State) (ρ : Response) : HostKept s (s.complete ρ) := ⟨rfl, rfl, rfl⟩

/-- A meaning that ends in `returnR v` from every state yields `v`. -/
theorem yields_of_returnR {i : Instr} {v : U256} (h : ∀ s, exec i s = returnR v s) : Yields i v :=
  fun s => ⟨_, h s, respIs_ofR v, hostKept_complete s _⟩

theorem yieldsQ_of_returnQ {i : Instr} {q : BitVec 64} (h : ∀ s, exec i s = returnQ q s) : YieldsQ i q :=
  fun s => ⟨_, h s, respIs_ofQ q, hostKept_complete s _⟩

theorem yieldsT_of_returnT {i : Instr} {t : Str} (ht : t.length ≤ 64) (h : ∀ s, exec i s = returnT t s) : YieldsT i t :=
  fun s => ⟨_, h s, respIs_ofT t ht, hostKept_complete s _⟩

theorem raises_of_raise {i : Instr} {e : Cause} (h : ∀ s, exec i s = raise e s) : Raises i e.code :=
  fun s => ⟨_, h s, respIs_ofError e, hostKept_complete s _⟩

/-- A command has one response: `Yields` determines the value. -/
theorem yields_unique {i : Instr} {v w : U256} (hv : Yields i v) (hw : Yields i w) : v = w := by
  obtain ⟨u, hu, ru, -⟩ := hv State.reset
  obtain ⟨u', hu', ru', -⟩ := hw State.reset
  rw [hu] at hu'
  cases hu'
  exact ru.2.1.symm.trans ru'.2.1

end Sys2Proof.Machine
end

