-- ==== Sys2Proof/Laws/PerInstr.lean ====
section
/-! SUPPORT. Facts about each command as syntax, one lemma per constructor: its encoding carries the opcode of a row of the
opcode map that selects the command's own mnemonic (R72), and drives only fields its format reads (R71, R79). -/

namespace Sys2Proof.Laws.EncodedRow

/-- The encoded port selects the command's row, and every field its format does not read is quiet. -/
def Statement (i : Instr) : Prop :=
  ∃ row, lookup (encode i).op = some row ∧ row.mnemonic = i.mnemonic ∧ row.pattern = i.mnemonic.opcode ∧
    (row.format.readsA = false → (encode i).a = 0) ∧ (row.format.readsB = false → (encode i).b = 0) ∧
    (row.format.readsX = false → (encode i).x = 0) ∧ (row.format.readsS = false → (encode i).s = [])

theorem fromU64 (v : BitVec 64) : Statement (.fromU64 v) :=
  ⟨⟨0xF, 0x0, .FROMU64, .xR⟩, lookup_FROMU64, rfl, rfl, fun _ => rfl, fun _ => rfl, fun h => absurd h (by decide), fun _ => rfl⟩
theorem fromLimbs (a0 a1 a2 a3 : Limb) : Statement (.fromLimbs a0 a1 a2 a3) :=
  ⟨⟨0xF, 0x1, .FROMLIMBS, .aR⟩, lookup_FROMLIMBS, rfl, rfl, fun h => absurd h (by decide), fun _ => rfl, fun _ => rfl, fun _ => rfl⟩
theorem fromHex (s : Str) : Statement (.fromHex s) :=
  ⟨⟨0xF, 0x2, .FROMHEX, .sR⟩, lookup_FROMHEX, rfl, rfl, fun _ => rfl, fun _ => rfl, fun _ => rfl, fun h => absurd h (by decide)⟩
theorem fromBin (s : Str) : Statement (.fromBin s) :=
  ⟨⟨0xF, 0x3, .FROMBIN, .sR⟩, lookup_FROMBIN, rfl, rfl, fun _ => rfl, fun _ => rfl, fun _ => rfl, fun h => absurd h (by decide)⟩
theorem toHex (v : U256) : Statement (.toHex v) :=
  ⟨⟨0xF, 0x4, .TOHEX, .aT⟩, lookup_TOHEX, rfl, rfl, fun h => absurd h (by decide), fun _ => rfl, fun _ => rfl, fun _ => rfl⟩
theorem limb (v : U256) (x : BitVec 64) : Statement (.limb v x) :=
  ⟨⟨0xF, 0x5, .LIMB, .axQ⟩, lookup_LIMB, rfl, rfl, fun h => absurd h (by decide), fun _ => rfl, fun h => absurd h (by decide), fun _ => rfl⟩
theorem bitSet (v : U256) (x : BitVec 64) : Statement (.bitSet v x) :=
  ⟨⟨0xF, 0x6, .BITSET, .axQ⟩, lookup_BITSET, rfl, rfl, fun h => absurd h (by decide), fun _ => rfl, fun h => absurd h (by decide), fun _ => rfl⟩
theorem add (a b : U256) : Statement (.add a b) :=
  ⟨⟨0xF, 0x7, .ADD, .abR⟩, lookup_ADD, rfl, rfl, fun h => absurd h (by decide), fun h => absurd h (by decide), fun _ => rfl, fun _ => rfl⟩
theorem sub (a b : U256) : Statement (.sub a b) :=
  ⟨⟨0xF, 0x8, .SUB, .abR⟩, lookup_SUB, rfl, rfl, fun h => absurd h (by decide), fun h => absurd h (by decide), fun _ => rfl, fun _ => rfl⟩
theorem shl (v : U256) (n : BitVec 64) : Statement (.shl v n) :=
  ⟨⟨0xF, 0x9, .SHL, .axR⟩, lookup_SHL, rfl, rfl, fun h => absurd h (by decide), fun _ => rfl, fun h => absurd h (by decide), fun _ => rfl⟩
theorem mul (a b : U256) : Statement (.mul a b) :=
  ⟨⟨0xF, 0xA, .MUL, .abR⟩, lookup_MUL, rfl, rfl, fun h => absurd h (by decide), fun h => absurd h (by decide), fun _ => rfl, fun _ => rfl⟩

end Sys2Proof.Laws.EncodedRow
end

