-- ==== Sys2Proof/Laws/Step.lean ====
section
/-! SUPPORT. What a step can do, said once: one case per kind of host action. -/

namespace Sys2Proof.Machine

/-- A step with a presented command and reset released: the decoded command runs in the sampled state, or the reserved
opcode is answered there. -/
theorem step_presenting (s : State) (c : Command) (rest : List HostAction) :
    step (s.presenting c rest) =
      match decode c with
      | .ok i => exec i { s with rst := false, port := c, script := rest }
      | .error _ => execReserved { s with rst := false, port := c, script := rest } := by
  simp only [step, nextEvent, State.presenting, presented, State.sample]
  cases decode c <;> rfl

/-- Every step is one of: nothing to do, a move of the reset signal, a command not accepted in reset, a command run, a
reserved opcode answered. -/
theorem step_cases (s : State) :
    (s.script = [] ∧ step s = .next s.idle) ∨
    (∃ rest, s.script = .assertReset :: rest ∧ step s = .next (s.setReset true rest)) ∨
    (∃ rest, s.script = .releaseReset :: rest ∧ step s = .next (s.setReset false rest)) ∨
    (∃ c rest, s.script = .present c :: rest ∧ s.rst = true ∧ step s = .next (s.sample c rest).resetUnit) ∨
    (∃ c rest i, s.script = .present c :: rest ∧ s.rst = false ∧ decode c = .ok i ∧
      step s = exec i (s.sample c rest)) ∨
    (∃ c rest e, s.script = .present c :: rest ∧ s.rst = false ∧ decode c = .error e ∧
      step s = execReserved (s.sample c rest)) := by
  rcases hs : s.script with _ | ⟨act, rest⟩
  · exact .inl ⟨rfl, by simp [step, nextEvent, hs]⟩
  · cases act with
    | assertReset => exact .inr (.inl ⟨rest, rfl, by simp [step, nextEvent, hs]⟩)
    | releaseReset => exact .inr (.inr (.inl ⟨rest, rfl, by simp [step, nextEvent, hs]⟩))
    | present c =>
      right; right; right
      cases hr : s.rst with
      | true => exact .inl ⟨c, rest, rfl, rfl, by simp [step, nextEvent, hs, presented, hr]⟩
      | false =>
        cases hd : decode c with
        | ok i => exact .inr (.inl ⟨c, rest, i, rfl, rfl, hd, by simp [step, nextEvent, hs, presented, hr, hd]⟩)
        | error e => exact .inr (.inr ⟨c, rest, e, rfl, rfl, hd, by simp [step, nextEvent, hs, presented, hr, hd]⟩)

/-- A run goes on from the state its first step answers. -/
theorem run_succ {s t : State} (k : Nat) (h : step s = .next t) :
    Host.Core.run core (k + 1) s = Host.Core.run core k t := by
  have h' : core.step s = .next t := h
  simp only [Host.Core.run, h']

/-- Every command ends in one of the four endings of R14, with the free working registers and the frame. -/
theorem exec_cases (i : Instr) (s : State) :
    (∃ v, exec i s = returnR v s) ∨ (∃ q, exec i s = returnQ q s) ∨ (∃ v, exec i s = returnT (hexText v) s) ∨
      ∃ e, exec i s = raise e s := by
  cases i with
  | fromU64 v => exact .inl ⟨_, rfl⟩
  | fromLimbs a0 a1 a2 a3 => exact .inl ⟨_, rfl⟩
  | fromHex str =>
    simp only [exec, execFromHex]
    split
    · exact .inl ⟨_, rfl⟩
    · exact .inr (.inr (.inr ⟨_, rfl⟩))
  | fromBin str =>
    simp only [exec, execFromBin]
    split
    · exact .inl ⟨_, rfl⟩
    · exact .inr (.inr (.inr ⟨_, rfl⟩))
  | toHex v => exact .inr (.inr (.inl ⟨v, rfl⟩))
  | limb v x =>
    simp only [exec, execLimb]
    split
    · exact .inr (.inl ⟨_, rfl⟩)
    · exact .inr (.inr (.inr ⟨_, rfl⟩))
  | bitSet v x =>
    simp only [exec, execBitSet]
    split
    · exact .inr (.inl ⟨_, rfl⟩)
    · exact .inr (.inr (.inr ⟨_, rfl⟩))
  | add a b => exact .inl ⟨_, rfl⟩
  | sub a b => exact .inl ⟨_, rfl⟩
  | shl v n => exact .inl ⟨_, rfl⟩
  | mul a b => exact .inl ⟨_, rfl⟩

end Sys2Proof.Machine
end

