-- ==== Sys2Proof/Tests/Slice0.lean ====
section
/-! SUPPORT. Tests: the well-formedness smoke, the opcodes written out bit by bit from `30_encoding.md` R72, one or two
vectors per command from `95_test_vectors.md` (the vector's id stands at each), the frame of a step, and for every
statement of `Certificates/Slice0/Obligations.lean` that has hypotheses a concrete case that meets them. -/

namespace Sys2Proof.Tests

set_option Elab.async false

open Sys2Proof.Machine

/-! ### Well-formedness: one ill-formed term for each check, and the legal ones beside it -/

theorem test_strMax_256_is_illegal : StrMax.legal (some 256) = false := by decide
theorem test_strMax_257_and_unbounded_are_legal : StrMax.legal (some 257) = true ∧ StrMax.legal none = true := by decide
theorem test_fromHex_too_long_for_port :
    Instr.wellFormed (some 257) (.fromHex (List.replicate 258 0x30#8)) = false := by decide +kernel
theorem test_fromBin_too_long_for_port :
    Instr.wellFormed (some 257) (.fromBin (List.replicate 258 0x30#8)) = false := by decide +kernel
theorem test_command_too_long_for_port :
    Command.wellFormed (some 257) { Command.quiet with s := List.replicate 258 0x30#8 } = false := by decide +kernel
theorem test_longest_fitting_string :
    Instr.wellFormed (some 257) (.fromBin (List.replicate 257 0x30#8)) = true := by decide +kernel

/-! ### Decoding: the opcode's four bits written out, every field driven differently -/

/-- A port with every operand field driven. -/
def port (op : BitVec 4) : Command := { op := op, a := ofLimbs 1 2 3 4, b := 0xb, x := 0xc, s := [0x31#8] }

theorem test_decode_FROMU64 : decode (port 0b0000#4) = .ok (.fromU64 0xc) := by decide +kernel
theorem test_decode_FROMLIMBS : decode (port 0b0001#4) = .ok (.fromLimbs 1 2 3 4) := by decide +kernel
theorem test_decode_FROMHEX : decode (port 0b0010#4) = .ok (.fromHex [0x31#8]) := by decide +kernel
theorem test_decode_FROMBIN : decode (port 0b0011#4) = .ok (.fromBin [0x31#8]) := by decide +kernel
theorem test_decode_TOHEX : decode (port 0b0100#4) = .ok (.toHex (ofLimbs 1 2 3 4)) := by decide +kernel
theorem test_decode_LIMB : decode (port 0b0101#4) = .ok (.limb (ofLimbs 1 2 3 4) 0xc) := by decide +kernel
theorem test_decode_BITSET : decode (port 0b0110#4) = .ok (.bitSet (ofLimbs 1 2 3 4) 0xc) := by decide +kernel
theorem test_decode_ADD : decode (port 0b0111#4) = .ok (.add (ofLimbs 1 2 3 4) 0xb) := by decide +kernel
theorem test_decode_SUB : decode (port 0b1000#4) = .ok (.sub (ofLimbs 1 2 3 4) 0xb) := by decide +kernel
theorem test_decode_SHL : decode (port 0b1001#4) = .ok (.shl (ofLimbs 1 2 3 4) 0xc) := by decide +kernel
theorem test_decode_MUL : decode (port 0b1010#4) = .ok (.mul (ofLimbs 1 2 3 4) 0xb) := by decide +kernel
theorem test_decode_reserved :
    decode (port 0b1011#4) = .error (.reservedOpcode 0b1011#4) ∧
    decode (port 0b1111#4) = .error (.reservedOpcode 0b1111#4) := by decide +kernel
theorem test_rows_are_unambiguous :
    List.Pairwise (fun r r' : OpRow => ∀ op : BitVec 4, (r.selects op && r'.selects op) = false) opcodeTable := by
  decide +kernel
theorem test_table_word :
    decodeTableWord 8 0x7 = some (.add 0 0) ∧ decodeTableWord 8 0xB = none := by decide +kernel

/-! ### Commands: vectors of `95_test_vectors.md` -/

/-- `ERR`, `R`, `Q` and `T` of a command's response. -/
def answer (i : Instr) : Option (BitVec 2 × U256 × BitVec 64 × Str) :=
  match exec i State.reset with
  | .next u => some (u.resp.err, u.resp.r, u.resp.q, u.resp.text)
  | .refused _ => none

/-- The codes of a list of characters (R77). -/
def codes (l : List Char) : Str := l.map fun ch => BitVec.ofNat 8 ch.toNat

/-- The all-ones limb. -/
def M : Limb := 0xffffffffffffffff

/-- K4: no sign extension. -/
theorem test_FROMU64_K4 :
    answer (.fromU64 0x8000000000000000) = some (0, 0x8000000000000000, 0, []) := by decide +kernel
/-- K5: limb 0 first. -/
theorem test_FROMLIMBS_K5 :
    answer (.fromLimbs 1 2 3 4) = some (0, 1 + 2 * 2 ^ 64 + 3 * 2 ^ 128 + 4 * 2 ^ 192, 0, []) := by decide +kernel
/-- H12: the right half is limb 0. -/
theorem test_FROMHEX_H12 :
    answer (.fromHex (codes ['f', 'e', 'D', 'c', 'b', 'a', '9', '8', '7', '6', '5', '4', '3', '2', '1', '0',
      '1', '2', '3', '4', '5', '6', '7', '8', '9', 'A', 'b', 'c', 'd', 'e', 'f', '0'])) =
      some (0, ofLimbs 0x123456789abcdef0 0xfedcba9876543210 0 0, 0, []) := by decide +kernel
/-- H17 and H19: too long although the value would fit, and a character that is no digit. -/
theorem test_FROMHEX_H17_H19 :
    answer (.fromHex (0x30#8 :: List.replicate 64 0x66#8)) = some (1, 0, 0, []) ∧
    answer (.fromHex (codes ['1', '2', 'g', '3'])) = some (1, 0, 0, []) := by decide +kernel
/-- N9: 65 ones. -/
theorem test_FROMBIN_N9 : answer (.fromBin (List.replicate 65 0x31#8)) = some (0, ofLimbs M 1 0 0, 0, []) := by
  decide +kernel
/-- N13 and N15: 257 characters, and a digit outside `0`, `1`. -/
theorem test_FROMBIN_N13_N15 :
    answer (.fromBin (List.replicate 257 0x30#8)) = some (1, 0, 0, []) ∧
    answer (.fromBin (codes ['1', '2'])) = some (1, 0, 0, []) := by decide +kernel
/-- T9: inner limbs padded, the leading one not. -/
theorem test_TOHEX_T9 :
    answer (.toHex (ofLimbs 0xdeadbeef 0 0xcafe 0)) = some (0, 0, 0, codes ['c', 'a', 'f', 'e'] ++
      List.replicate 24 0x30#8 ++ codes ['d', 'e', 'a', 'd', 'b', 'e', 'e', 'f']) := by decide +kernel
/-- T1 and T13: zero, and the longest output. -/
theorem test_TOHEX_T1_T13 :
    answer (.toHex 0) = some (0, 0, 0, [0x30#8]) ∧
    answer (.toHex (ofLimbs M M M M)) = some (0, 0, 0, List.replicate 64 0x66#8) := by decide +kernel

/-- The value of vectors Q1 to Q16 and L1 to L15. -/
def v : U256 := ofLimbs 0x8000000000000001 0xf0f0f0f0f0f0f0f0 0x0123456789abcdef 0xfedcba9876543210

/-- Q3. -/
theorem test_LIMB_Q3 : answer (.limb v 2) = some (0, 0, 0x0123456789abcdef, []) := by decide +kernel
/-- Q5 and Q6: 4, and 2^32, which is not limb 0. -/
theorem test_LIMB_Q5_Q6 :
    answer (.limb v 4) = some (2, 0, 0, []) ∧ answer (.limb v 0x100000000) = some (2, 0, 0, []) := by decide +kernel
/-- Q10 to Q12: the limb boundary. -/
theorem test_BITSET_Q10_Q11_Q12 :
    [63, 64, 68].map (fun k => answer (.bitSet v k)) = [some (0, 0, 1, []), some (0, 0, 0, []), some (0, 0, 1, [])] := by
  decide +kernel
/-- Q15: 256 does not test bit 0. -/
theorem test_BITSET_Q15 : answer (.bitSet v 256) = some (2, 0, 0, []) := by decide +kernel
/-- A4: limb 1 overflows only through the carry-in. -/
theorem test_ADD_A4 : answer (.add (ofLimbs M 0 0 0) (ofLimbs 1 M 0 0)) = some (0, ofLimbs 0 0 1 0, 0, []) := by
  decide +kernel
/-- A9: maximum plus maximum. -/
theorem test_ADD_A9 :
    answer (.add (ofLimbs M M M M) (ofLimbs M M M M)) = some (0, ofLimbs 0xfffffffffffffffe M M M, 0, []) := by
  decide +kernel
/-- B7: limb 2 is -2^64. -/
theorem test_SUB_B7 : answer (.sub (ofLimbs 5 0 0 9) (ofLimbs 5 M M 3)) = some (0, ofLimbs 0 1 0 5, 0, []) := by
  decide +kernel
/-- B5: minuend and subtrahend in the right places. -/
theorem test_SUB_B5 : answer (.sub 5 7) = some (0, ofLimbs 0xfffffffffffffffe M M M, 0, []) := by decide +kernel
/-- L4: a shift across limbs. -/
theorem test_SHL_L4 :
    answer (.shl v 63) =
      some (0, ofLimbs 0x8000000000000000 0x4000000000000000 0xf878787878787878 0x0091a2b3c4d5e6f7, 0, []) := by
  decide +kernel
/-- L13: 320 is not a shift by 64. -/
theorem test_SHL_L13 : answer (.shl v 320) = some (0, 0, 0, []) := by decide +kernel
/-- M15. -/
theorem test_MUL_M15 :
    answer (.mul (ofLimbs 0xfedcba9876543210 0x123456789abcdef0 0 0)
      (ofLimbs 0x123456789abcdef0 0x0fedcba987654321 0 0)) =
      some (0, ofLimbs 0x236d88fe5618cf00 0x85f06f6944673932 0x335deb7595e5ff79 0x0121fa00ad77d742, 0, []) := by
  decide +kernel
/-- M14: maximum times maximum. -/
theorem test_MUL_M14 : answer (.mul (ofLimbs M M M M) (ofLimbs M M M M)) = some (0, 1, 0, []) := by decide +kernel

/-! ### Steps -/

/-- A host that presents one command at reset. -/
def host (c : Command) : State := State.reset.presenting c []

/-- What a step leaves in `ERR`, `R`, `Q`, `TLEN`. -/
def stepped (s : State) : Option (BitVec 2 × U256 × BitVec 64 × BitVec 7) :=
  match step s with
  | .next u => some (u.resp.err, u.resp.r, u.resp.q, u.resp.tlen)
  | .refused _ => none

/-- E2: a reserved opcode reads no operand. -/
theorem test_step_E2 :
    stepped (host { op := 0xF, a := ofLimbs M M M M, b := ofLimbs M M M M, x := M, s := codes ['1', '2', 'g', '3'] }) =
      some (3, 0, 0, 0) := by decide +kernel
/-- E3: fields the command does not read are ignored. -/
theorem test_step_E3 :
    stepped (host { op := 0x7, a := 1, b := 2, x := 999, s := codes ['z', 'z'] }) = some (0, 3, 0, 0) := by
  decide +kernel
/-- The buffer image of T5 (R58). -/
theorem test_step_TBUF_T5 :
    (match step (host { Command.quiet with op := 0x4, a := ofLimbs 0 1 0 0 }) with
      | .next u => decide (u.resp.tlen = 17 ∧
          u.resp.tbuf.toList = 0x31#8 :: (List.replicate 16 0x30#8 ++ List.replicate 48 0x00#8))
      | .refused _ => false) = true := by decide +kernel
/-- A presented command is consumed and stays on the port (R23). -/
theorem test_step_frame :
    (match step (host (port 0x7)) with
      | .next u => decide (u.port = port 0x7 ∧ u.script = [] ∧ u.rst = false)
      | .refused _ => false) = true := by decide +kernel
/-- While reset is asserted no command is accepted (R220). -/
theorem test_step_in_reset :
    stepped { host (port 0x7) with rst := true } = some (0, 0, 0, 0) := by decide +kernel
/-- A table word placed by `withFetchWord` runs as the first command after reset. -/
theorem test_step_withFetchWord :
    stepped (State.reset.withFetchWord 8 0x4) = some (0, 0, 0, 1) ∧
    stepped (State.reset.withFetchWord 8 0xC) = some (3, 0, 0, 0) := by decide +kernel

/-! ### The hypotheses of the statements can be met -/

theorem witness_OpcodeMapDecodes : 0xB ≤ (0xB#4).toNat ∧ 0xB ≤ (0xF#4).toNat := by decide
/-- Two different ports of one opcode, at the last command and at the first reserved opcode. -/
theorem witness_EachOpcodeHasOneVerdict :
    (port 0xA).op = { Command.quiet with op := 0xA }.op ∧ (port 0xB).op = { Command.quiet with op := 0xB }.op ∧
    port 0xA ≠ { Command.quiet with op := 0xA } := ⟨rfl, rfl, by decide⟩
theorem witness_DecodeEncodeAgree :
    StrMax.legal (some 257) = true ∧ Instr.wellFormed (some 257) (.fromHex [0x31#8]) = true ∧
    decode (port 0x2) = .ok (.fromHex [0x31#8]) := by decide +kernel
/-- Two different ports of one ADD. -/
theorem witness_UnreadFieldsDoNotMatter :
    ∃ (c d : Command) (row : OpRow), c ≠ d ∧ lookup c.op = some row ∧ d.op = c.op ∧
      (row.format.readsA = true → d.a = c.a) ∧ (row.format.readsB = true → d.b = c.b) ∧
      (row.format.readsX = true → d.x = c.x) ∧ (row.format.readsS = true → d.s = c.s) :=
  ⟨port 0x7, { port 0x7 with x := 0, s := [] }, ⟨0xF, 0x7, .ADD, .abR⟩, by decide +kernel, by decide, rfl,
    fun _ => rfl, fun _ => rfl, fun h => absurd h (by decide), fun h => absurd h (by decide)⟩
theorem witness_ReservedOpcodeRaisesIllegalOp : 0xB ≤ (port 0xB).op.toNat ∧ 0xB ≤ (port 0xF).op.toNat := by decide
theorem witness_StepRunsDecodedCommand : decode (port 0xA) = .ok (.mul (ofLimbs 1 2 3 4) 0xb) := by decide +kernel
theorem witness_RegistersHoldKthResponse : 1 < [port 0x7, port 0x8].length := by decide
theorem witness_RegistersHoldBetweenCommands : State.reset.rst = false ∧ State.reset.script = [] := by decide
/-- A state with a non-zero result and a command to run meets the invariant and steps. -/
theorem witness_StepKeepsInvariant :
    ∃ s u : State, s.Inv ∧ step s = .next u ∧ s.resp.r ≠ 0 ∧ s.script ≠ [] := by
  refine ⟨{ host (port 0x4) with resp := Response.ofR 5 }, _,
    ⟨⟨by decide, fun k hk => ?_, fun k _ => ?_, ?_, ?_, ?_⟩, fun h => ?_⟩, rfl, by decide, by decide⟩
  · exact absurd hk (by simp [Response.ofR])
  · simp [Response.ofR, bufferOf]
  · exact fun h => absurd rfl h
  · exact fun _ => ⟨rfl, rfl⟩
  · exact fun _ => rfl
  · exact absurd h (by decide)
/-- A row with a success and a failure of its command, and a success of each format that names `T` or `Q`. -/
theorem witness_FormatFixesResultRegister :
    lookup (port 0x2).op = some ⟨0xF, 0x2, .FROMHEX, .sR⟩ ∧
    [port 0x2, { port 0x2 with s := [0x67#8] }, port 0x4, { port 0x6 with x := 128 }].map (fun c => stepped (host c)) =
      [some (0, 1, 0, 0), some (1, 0, 0, 0), some (0, 0, 0, 49), some (0, 0, 1, 0)] := by decide +kernel

/-- Strings at the limit of each parser are accepted. -/
theorem witness_accepted_at_limit :
    Accepted hexval 64 (List.replicate 64 0x66#8) ∧ Accepted binval 256 (List.replicate 256 0x31#8) :=
  ⟨⟨by decide +kernel, by decide +kernel⟩, ⟨by decide +kernel, by decide +kernel⟩⟩
/-- The empty string is accepted. -/
theorem witness_accepted_empty : Accepted hexval 64 [] ∧ Accepted binval 256 [] :=
  ⟨⟨by decide, by decide⟩, ⟨by decide, by decide⟩⟩
/-- One character past the limit, or one character that is no digit, and a string is not accepted. -/
theorem witness_not_accepted :
    ¬ Accepted hexval 64 (List.replicate 65 0x30#8) ∧ ¬ Accepted hexval 64 [0x31#8, 0x67#8] ∧
    ¬ Accepted binval 256 (List.replicate 257 0x30#8) ∧ ¬ Accepted binval 256 [0x32#8] :=
  ⟨fun h => absurd h.1 (by decide +kernel), fun h => h.2 1 (by decide) (by decide),
    fun h => absurd h.1 (by decide +kernel), fun h => h.2 0 (by decide) (by decide)⟩
/-- Each clause of the length test, at its boundary. -/
theorem witness_LengthTestCountsCharacters :
    Accepted hexval 64 [0x31#8] ∧ 63 + [0x31#8].length ≤ 64 ∧ 64 < 64 + [0x31#8].length ∧
    Accepted binval 256 [0x31#8] ∧ 255 + [0x31#8].length ≤ 256 ∧ 256 < 256 + [0x31#8].length ∧ 64 ≤ 64 ∧ 256 ≤ 256 :=
  ⟨⟨by decide, by decide⟩, by decide, by decide, ⟨by decide, by decide⟩, by decide, by decide, by decide, by decide⟩
/-- The lowest and the highest leading limb, and zero. -/
theorem witness_ToHexFormatsLimbs : TopLimb 1 0 ∧ TopLimb (ofLimbs 0 0 0 1) 3 ∧ (0 : U256) = 0 :=
  ⟨⟨by decide, by decide +kernel, fun j h1 h2 => by
      rcases (by omega : j = 1 ∨ j = 2 ∨ j = 3) with rfl | rfl | rfl <;> decide +kernel⟩,
    ⟨by decide, by decide +kernel, fun j h1 h2 => by omega⟩, rfl⟩
theorem witness_ToHexLength : (1 : U256) ≠ 0 ∧ TopLimb (ofLimbs 0 1 0 0) 1 :=
  ⟨by decide, by decide, by decide +kernel, fun j h1 h2 => by
    rcases (by omega : j = 2 ∨ j = 3) with rfl | rfl <;> decide +kernel⟩
theorem witness_HexRoundTrip : Accepted hexval 64 [0x30#8, 0x41#8] := ⟨by decide, by decide⟩
theorem witness_LimbReadsOneLimb :
    (3#64).toNat ≤ 3 ∧ 3 < (4#64).toNat ∧ 3 < (0xffffffffffffffff#64).toNat := by decide
theorem witness_BitSetTestsOneBit :
    (255#64).toNat ≤ 255 ∧ 255 < (256#64).toNat ∧ 255 < (0xffffffffffffffff#64).toNat := by decide
theorem witness_ShlMovesBits : 256 ≤ (256#64).toNat ∧ 256 ≤ (0xffffffffffffffff#64).toNat := by decide
theorem witness_ShiftsMultiplyAndCompose : 0 < 64 ∧ 63 < 64 ∧ 0 < 4 ∧ 3 < 4 := by decide
theorem witness_ShiftLaws : 256 ≤ (256#64).toNat := by decide
theorem witness_ShiftAgreesWithBinaryStrings : 0 ≤ 255 ∧ 255 ≤ 255 := by decide
/-- A carry chain, a borrow chain, and a sequence of accumulators. -/
theorem witness_LastCarryIsQuotient :
    (fun _ => 0 : Nat → Nat) 0 = 0 ∧ ∀ i, i < 4 → (fun _ => 0 : Nat → Nat) (i + 1) = (limbVal 0 i + limbVal 0 i + 0) / 2 ^ 64 := by
  decide
theorem witness_LastBorrowIsQuotient :
    (fun i => if i = 0 then 0 else 1 : Nat → Int) 0 = 0 ∧ ∀ i, i < 4 → (fun i => if i = 0 then 0 else 1 : Nat → Int) (i + 1) =
      if (limbVal 0 i : Int) - limbVal 1 i - (fun i => if i = 0 then 0 else 1 : Nat → Int) i < 0 then 1 else 0 := by
  decide +kernel
/-- The multiplicand 3 and the multiplier 1: step 0 adds, the others do not. -/
theorem witness_MulLoopInvariant :
    ∃ (a b : U256) (acc : Nat → U256), acc 0 = 0 ∧ a ≠ 0 ∧
      ∀ i, i < 256 → ∃ w, Yields (.shl a (BitVec.ofNat 64 i)) w ∧
        if b.getLsbD i then Yields (.add (acc i) w) (acc (i + 1)) else acc (i + 1) = acc i := by
  refine ⟨3, 1, fun i => if i = 0 then 0 else 3, rfl, by decide, fun i hi => ⟨_, yields_of_returnR fun _ => rfl, ?_⟩⟩
  rcases i with _ | i
  · refine yields_of_returnR (v := 3) fun s => ?_
    rw [shifter_eq]
    show returnR (adder 0 _ s.work).1 s = _
    rw [adder_eq]; simp
  · simp
theorem witness_FromBinPlacesCharacters : Accepted binval 256 [0x31#8, 0x30#8] := ⟨by decide, by decide⟩
/-- A multiplier with a set bit and a clear bit. -/
theorem witness_MulAccumulatesShiftedMultiplicand :
    (1 : U256).getLsbD 0 = true ∧ (1 : U256).getLsbD 255 = false := by decide +kernel

end Sys2Proof.Tests
end

section
/-! SUPPORT. The four endings of R14 as one: whatever a command answers, it answers `State.complete` of some response, and
so writes no operand field (R23). -/

namespace Sys2Proof.Machine

/-- Every command completes (R25): its ending decides only the response. -/
theorem exec_eq_complete (i : Instr) (s : State) : ∃ ρ : Response, exec i s = .next (s.complete ρ) := by
  obtain ⟨v, h⟩ | ⟨q, h⟩ | ⟨v, h⟩ | ⟨e, h⟩ := exec_cases i s
  · exact ⟨Response.ofR v, h⟩
  · exact ⟨Response.ofQ q, h⟩
  · exact ⟨Response.ofT (hexText v), h⟩
  · exact ⟨Response.ofError e, h⟩

/-- A reserved opcode completes with the IllegalOp response (R74). -/
theorem execReserved_eq_complete (s : State) :
    execReserved s = .next (s.complete (Response.ofError .illegalOp)) := rfl

/-- Settles O15: every command, and the answer to a reserved opcode, ends in `State.complete`, which keeps the frame. -/
theorem commandsKeepOperands : Obligations.CommandsKeepOperands := by
  refine ⟨fun i s => ?_, fun s => ?_⟩
  · obtain ⟨ρ, h⟩ := exec_eq_complete i s
    exact ⟨s.complete ρ, h, hostKept_complete s ρ⟩
  · exact ⟨_, execReserved_eq_complete s, hostKept_complete s _⟩

end Sys2Proof.Machine
end

section
/-! SUPPORT. The constructors (R100, R101): each yields the value of its limbs from every state, and limbs taken from a port
value assemble to that value again. -/

namespace Sys2Proof.Machine

/-- FROMU64 (R100): the argument in limb 0, zero above it. -/
theorem yields_fromU64 (x : BitVec 64) : Yields (.fromU64 x) (ofLimbs x 0 0 0) :=
  yields_of_returnR fun _ => rfl

/-- FROMLIMBS (R101): the arguments in the order they are given, least significant limb first. -/
theorem yields_fromLimbs (a0 a1 a2 a3 : Limb) : Yields (.fromLimbs a0 a1 a2 a3) (ofLimbs a0 a1 a2 a3) :=
  yields_of_returnR fun _ => rfl

/-- A scalar in limb 0 is the value itself: no sign extension, nothing spills into limb 1 (R100). -/
theorem toNat_ofLimbs_scalar (x : BitVec 64) : (ofLimbs x 0 0 0).toNat = x.toNat := by
  simp [toNat_ofLimbs]

/-- FROMLIMBS of a value's own limbs yields that value (R101). -/
theorem yields_fromLimbs_limb (v : U256) : Yields (.fromLimbs (limb v 0) (limb v 1) (limb v 2) (limb v 3)) v := by
  have h := yields_fromLimbs (limb v 0) (limb v 1) (limb v 2) (limb v 3)
  rwa [ofLimbs_limb] at h

/-- Settles O18: the value is the limb tuple `(X, 0, 0, 0)`, read by `limbVal_ofLimbs`. -/
theorem fromU64BuildsValue : Obligations.FromU64BuildsValue := by
  intro c
  exact ⟨decode_FROMU64 _ rfl, ofLimbs c.x 0 0 0, yields_fromU64 c.x, toNat_ofLimbs_scalar c.x,
    limbVal_ofLimbs c.x 0 0 0⟩

/-- Settles O19: the value is the tuple of the arguments; the port's limbs assemble to `A` again. -/
theorem fromLimbsAssignsLimbs : Obligations.FromLimbsAssignsLimbs := by
  refine ⟨fun a0 a1 a2 a3 => ?_, fun c => ?_⟩
  · obtain ⟨h0, h1, h2, h3⟩ := limbVal_ofLimbs a0 a1 a2 a3
    exact ⟨ofLimbs a0 a1 a2 a3, yields_fromLimbs a0 a1 a2 a3, h0, h1, h2, h3, toNat_ofLimbs a0 a1 a2 a3⟩
  · exact ⟨limb c.a 0, limb c.a 1, limb c.a 2, limb c.a 3, decode_FROMLIMBS _ rfl, yields_fromLimbs_limb c.a⟩

end Sys2Proof.Machine
end

section
/-! SUPPORT. The two parsers as one (R110 to R115): a command that runs the shared converter with a `DigitFormat` yields the
limbs of its groups or raises ParseError. FROMHEX and FROMBIN are the two such commands. -/

namespace Sys2Proof.Machine

/-! ### Groups (R111) -/

/-- Group j of a string, `S[lo_j .. hi_j)` (R111): truncated subtraction is the rule's `max(0, _)`. -/
def groupStr (f : DigitFormat) (str : Str) (j : Nat) : Str :=
  (str.take (str.length - f.group * j)).drop (str.length - f.group * (j + 1))

/-- The value whose limb j is group j (R111). -/
def parsed (f : DigitFormat) (str : Str) : U256 :=
  ofLimbs (groupLimb f (groupStr f str 0)) (groupLimb f (groupStr f str 1)) (groupLimb f (groupStr f str 2))
    (groupLimb f (groupStr f str 3))

/-- The cursor stops of R29 are the group bounds of R111, and the converter reads no working register it has not set. -/
theorem convert_eq_parsed (f : DigitFormat) (str : Str) (w : Work) : (convert f str w).1 = parsed f str := by
  have h2 : f.group * 2 = f.group + f.group := by ring
  have h3 : f.group * 3 = f.group + (f.group + f.group) := by ring
  have h4 : f.group * 4 = f.group + (f.group + (f.group + f.group)) := by ring
  simp [convert, takeGroup, parsed, groupStr, h2, h3, h4, Nat.sub_sub, Nat.add_assoc]

theorem groupStr_length_le (f : DigitFormat) (str : Str) (j : Nat) : (groupStr f str j).length ≤ f.group := by
  simp only [groupStr, List.length_drop, List.length_take, Nat.mul_succ]
  omega

/-! ### The spec's digit sums -/

/-- One more character on the right shifts the sum by one digit (R111, Horner's form). -/
theorem digitSum_succ (dv : Byte → Option Nat) (base : Nat) (str : Str) {lo hi : Nat} (h : lo ≤ hi) :
    digitSum dv base str lo (hi + 1) = digitSum dv base str lo hi * base + (dv (str.getD hi 0)).getD 0 := by
  have hterm : ∀ k ∈ Finset.Ico lo hi, (dv (str.getD k 0)).getD 0 * base ^ (hi + 1 - 1 - k) =
      (dv (str.getD k 0)).getD 0 * base ^ (hi - 1 - k) * base := by
    intro k hk
    have hk' := (Finset.mem_Ico.mp hk).2
    have e : hi + 1 - 1 - k = hi - 1 - k + 1 := by omega
    rw [e, pow_succ, mul_assoc]
  rw [digitSum, Finset.sum_Ico_succ_top h, Finset.sum_congr rfl hterm, ← Finset.sum_mul, digitSum]
  simp

theorem readFrom_concat (f : DigitFormat) (str : Str) (ch : Byte) :
    readFrom f 0 (str ++ [ch]) = readFrom f 0 str * f.base + (f.dv ch).getD 0 := by
  simp [readFrom]

/-- The model's left-to-right reading of `S[lo .. hi)` is the spec's sum (R111), by induction on `hi`. -/
theorem readFrom_slice (f : DigitFormat) (str : Str) {lo hi : Nat} (hlo : lo ≤ hi) (hhi : hi ≤ str.length) :
    readFrom f 0 ((str.take hi).drop lo) = digitSum f.dv f.base str lo hi := by
  induction hi, hlo using Nat.le_induction with
  | base => simp [readFrom, digitSum]
  | succ hi hle ih =>
    have hlt : hi < str.length := hhi
    have hsplit : (str.take (hi + 1)).drop lo = (str.take hi).drop lo ++ [str.getD hi 0] := by
      rw [List.take_add_one, List.drop_append_of_le_length (by simp; omega)]
      simp [hlt]
    rw [hsplit, readFrom_concat, ih hlt.le, digitSum_succ f.dv f.base str hle]

/-- A group's limb is the rule's `groupval` (R111). -/
theorem groupLimb_groupStr (f : DigitFormat) (hf : f.Fits) (str : Str) (j : Nat) :
    (groupLimb f (groupStr f str j)).toNat = groupVal f.dv f.base f.group str j := by
  have hlo : str.length - f.group * (j + 1) ≤ str.length - f.group * j := by
    rw [Nat.mul_succ]
    omega
  rw [groupLimb_toNat f hf _ (groupStr_length_le f str j)]
  exact readFrom_slice f str hlo (Nat.sub_le _ _)

theorem limbVal_parsed (f : DigitFormat) (hf : f.Fits) (str : Str) {j : Nat} (hj : j < 4) :
    limbVal (parsed f str) j = groupVal f.dv f.base f.group str j := by
  rw [← groupLimb_groupStr f hf]
  obtain ⟨h0, h1, h2, h3⟩ := limbVal_ofLimbs (groupLimb f (groupStr f str 0)) (groupLimb f (groupStr f str 1))
    (groupLimb f (groupStr f str 2)) (groupLimb f (groupStr f str 3))
  match j, hj with
  | 0, _ => exact h0
  | 1, _ => exact h1
  | 2, _ => exact h2
  | 3, _ => exact h3

theorem parsed_toNat (f : DigitFormat) (hf : f.Fits) (str : Str) (hl : str.length ≤ f.maxLen) :
    (parsed f str).toNat = readFrom f 0 str := by
  rw [← convert_eq_parsed f str State.reset.work]
  exact convert_toNat f hf str State.reset.work hl

/-! ### Leading zeros (R115) -/

theorem accepted_zeros_append {dv : Byte → Option Nat} {maxLen n : Nat} {str : Str} (hz : dv 0x30#8 = some 0)
    (ha : Accepted dv maxLen str) (hl : n + str.length ≤ maxLen) :
    Accepted dv maxLen (List.replicate n 0x30#8 ++ str) := by
  obtain ⟨-, hd⟩ := ha
  refine ⟨by simpa using hl, fun k hk => ?_⟩
  rw [List.length_append, List.length_replicate] at hk
  by_cases hkn : k < n
  · rw [List.getD_append _ _ _ _ (by simpa using hkn), List.getD_replicate _ hkn, hz]
    exact Option.some_ne_none 0
  · rw [List.getD_append_right _ _ _ _ (by simpa using hkn), List.length_replicate]
    exact hd (k - n) (by omega)

theorem readFrom_zeros (f : DigitFormat) (hz : f.dv 0x30#8 = some 0) (n : Nat) :
    readFrom f 0 (List.replicate n 0x30#8) = 0 := by
  induction n with
  | zero => rfl
  | succ n ih => rw [List.replicate_succ', readFrom_concat, ih, hz, Nat.zero_mul, Option.getD_some]

theorem parsed_zeros_append (f : DigitFormat) (hf : f.Fits) (hz : f.dv 0x30#8 = some 0) {n : Nat} {str : Str}
    (hl : n + str.length ≤ f.maxLen) : parsed f (List.replicate n 0x30#8 ++ str) = parsed f str := by
  apply BitVec.eq_of_toNat_eq
  rw [parsed_toNat f hf _ (by simpa using hl), parsed_toNat f hf str (by omega), readFrom_append,
    readFrom_zeros f hz, Nat.zero_mul, Nat.zero_add]

theorem parsed_nil (f : DigitFormat) (hf : f.Fits) : parsed f [] = 0 :=
  BitVec.eq_of_toNat_eq (parsed_toNat f hf [] (Nat.zero_le _))

/-! ### The parser commands -/

/-- `cmd` is a parser of the format `f`: it validates the whole string and then converts it, and the format fits the unit's
limbs. -/
structure IsParser (cmd : Str → Instr) (f : DigitFormat) : Prop where
  exec_eq : ∀ str s, exec (cmd str) s =
    if accepts f str then returnR (convert f str s.work).1 s else raise .parseError s
  fits : f.Fits
  zero_digit : f.dv 0x30#8 = some 0

theorem isParser_fromHex : IsParser .fromHex hexFormat := ⟨fun _ _ => rfl, hexFormat_fits, by decide⟩
theorem isParser_fromBin : IsParser .fromBin binFormat := ⟨fun _ _ => rfl, binFormat_fits, by decide⟩

namespace IsParser

variable {cmd : Str → Instr} {f : DigitFormat} {str : Str}

theorem yields (p : IsParser cmd f) (ha : Accepted f.dv f.maxLen str) : Yields (cmd str) (parsed f str) := by
  refine yields_of_returnR fun s => ?_
  rw [p.exec_eq, if_pos ((accepts_iff f str).mpr ha), convert_eq_parsed]

theorem raises (p : IsParser cmd f) (hn : ¬ Accepted f.dv f.maxLen str) : Raises (cmd str) 1 := by
  refine raises_of_raise (e := .parseError) fun s => ?_
  rw [p.exec_eq, if_neg fun h => hn ((accepts_iff f str).mp h)]

/-- The length alone rejects, whatever the characters are (R115). -/
theorem raises_of_length (p : IsParser cmd f) (h : f.maxLen < str.length) : Raises (cmd str) 1 :=
  p.raises fun ha => absurd ha.1 (Nat.not_le.mpr h)

theorem raises_zeros_append (p : IsParser cmd f) {n : Nat} (h : f.maxLen < n + str.length) :
    Raises (cmd (List.replicate n 0x30#8 ++ str)) 1 :=
  p.raises_of_length (by simpa using h)

theorem yields_groups (p : IsParser cmd f) (ha : Accepted f.dv f.maxLen str) :
    ∃ v : U256, Yields (cmd str) v ∧ ∀ j, j < 4 → limbVal v j = groupVal f.dv f.base f.group str j :=
  ⟨parsed f str, p.yields ha, fun _ hj => limbVal_parsed f p.fits str hj⟩

theorem yields_zeros_append (p : IsParser cmd f) {n : Nat} (ha : Accepted f.dv f.maxLen str)
    (hl : n + str.length ≤ f.maxLen) : Yields (cmd (List.replicate n 0x30#8 ++ str)) (parsed f str) := by
  have h := p.yields (accepted_zeros_append p.zero_digit ha hl)
  rwa [parsed_zeros_append f p.fits p.zero_digit hl] at h

theorem yields_zeros (p : IsParser cmd f) {n : Nat} (hl : n ≤ f.maxLen) : Yields (cmd (List.replicate n 0x30#8)) 0 := by
  have hnil : Accepted f.dv f.maxLen [] := ⟨Nat.zero_le _, fun _ hk => absurd hk (Nat.not_lt_zero _)⟩
  have h := p.yields_zeros_append (n := n) hnil hl
  rwa [List.append_nil, parsed_nil f p.fits] at h

end IsParser

/-! ### The statements -/

/-- Settles O21: both commands are parsers, which accept by `accepts_iff`. -/
theorem parsersAcceptExactlyDigitStrings : Obligations.ParsersAcceptExactlyDigitStrings := fun _ =>
  ⟨fun ha => ⟨_, isParser_fromHex.yields ha⟩, isParser_fromHex.raises,
    fun ha => ⟨_, isParser_fromBin.yields ha⟩, isParser_fromBin.raises⟩

/-- Settles O22: the converter's limb j reads group j, whose digit sum is `groupVal`. -/
theorem fromHexBuildsLimbsFromGroups : Obligations.FromHexBuildsLimbsFromGroups := fun _ =>
  ⟨decode_FROMHEX _ rfl, isParser_fromHex.yields_groups, isParser_fromHex.raises⟩

/-- Settles O23: as O22, with groups of 64 binary digits. -/
theorem fromBinBuildsLimbsFromGroups : Obligations.FromBinBuildsLimbsFromGroups := fun _ =>
  ⟨decode_FROMBIN _ rfl, isParser_fromBin.yields_groups, isParser_fromBin.raises⟩

/-- Settles O26: zeros in front add nothing to the number read, and count in the length. -/
theorem lengthTestCountsCharacters : Obligations.LengthTestCountsCharacters := fun _ _ =>
  ⟨fun ha hl => ⟨_, isParser_fromHex.yields ha, isParser_fromHex.yields_zeros_append ha hl⟩,
    isParser_fromHex.raises_zeros_append,
    fun ha hl => ⟨_, isParser_fromBin.yields ha, isParser_fromBin.yields_zeros_append ha hl⟩,
    isParser_fromBin.raises_zeros_append, isParser_fromHex.yields_zeros, isParser_fromBin.yields_zeros⟩

end Sys2Proof.Machine
end

section
/-! SUPPORT. The limbs-to-hex formatter (R120): the digits of a limb are the base-16 digits of its number, and the text
is the highest non-zero limb without leading zeros, followed by the padded limbs below it. -/

namespace Sys2Proof.Machine

/-! ### Digits of a limb -/

/-- The four bits the formatter selects at position p are the base-16 digit of weight `16^(15-p)`. -/
theorem extractLsb'_eq_digit (x : Limb) {p : Nat} (hp : p < 16) :
    (x.extractLsb' (60 - 4 * p) 4).toNat = x.toNat / 16 ^ (15 - p) % 16 := by
  have hshift : 60 - 4 * p = 4 * (15 - p) := by omega
  rw [BitVec.extractLsb'_toNat, Nat.shiftRight_eq_div_pow, hshift, Nat.pow_mul]

theorem pad16_eq_sixteenDigits (x : Limb) : pad16 x = sixteenDigits x.toNat :=
  List.map_congr_left fun _ hp => by rw [extractLsb'_eq_digit x (List.mem_range.mp hp)]

theorem pad16_limb (v : U256) (i : Nat) : pad16 (limb v i) = sixteenDigits (limbVal v i) := by
  rw [pad16_eq_sixteenDigits, limb_toNat]

theorem nopad_limb (v : U256) (i : Nat) : nopad (limb v i) = dropZeros (sixteenDigits (limbVal v i)) := by
  rw [nopad, pad16_limb, dropZeros]

/-! ### The text of a value -/

theorem limb_eq_zero_iff (v : U256) (i : Nat) : limb v i = 0 ↔ limbVal v i = 0 := by
  rw [← limb_toNat, ← BitVec.toNat_inj]
  rfl

/-- The limbs below limb m, most significant first. -/
theorem paddedBelow_eq_flatMap (v : U256) (m : Nat) :
    paddedBelow v m = (List.range m).reverse.flatMap fun i => sixteenDigits (limbVal v i) := by
  induction m with
  | zero => rfl
  | succ m ih => simp [paddedBelow, pad16_limb, ih, List.range_succ]

/-- A limb that is not zero starts the text. -/
theorem textFrom_of_ne_zero {v : U256} {m : Nat} (hm : limbVal v m ≠ 0) :
    textFrom v m = nopad (limb v m) ++ paddedBelow v m := by
  have hm' : limb v m ≠ 0 := mt (limb_eq_zero_iff v m).mp hm
  cases m with
  | zero => rw [textFrom, if_neg hm', paddedBelow, List.append_nil]
  | succ m => rw [textFrom, if_neg hm']

/-- Zero limbs above limb m are skipped: the text from any of them is the text from limb m. -/
theorem textFrom_eq_of_zeros_above {v : U256} {m i : Nat} (hi : m ≤ i)
    (hz : ∀ j, m < j → j ≤ i → limbVal v j = 0) : textFrom v i = textFrom v m := by
  induction i, hi using Nat.le_induction with
  | base => rfl
  | succ i hle ih =>
    have htop : limb v (i + 1) = 0 := (limb_eq_zero_iff v (i + 1)).mpr (hz (i + 1) (by omega) le_rfl)
    rw [textFrom, if_pos htop, ih fun j hj hji => hz j hj (by omega)]

theorem hexText_zero : hexText 0 = [0x30#8] := by decide

/-- R120 for a value that is not zero. -/
theorem hexText_of_topLimb {v : U256} {m : Nat} (h : TopLimb v m) :
    hexText v = dropZeros (sixteenDigits (limbVal v m)) ++
      (List.range m).reverse.flatMap fun i => sixteenDigits (limbVal v i) := by
  obtain ⟨hm, hne, hz⟩ := h
  rw [hexText, textFrom_eq_of_zeros_above (by omega) fun j hj hj3 => hz j hj (by omega), textFrom_of_ne_zero hne,
    nopad_limb, paddedBelow_eq_flatMap]

/-! ### The statement -/

/-- TOHEX yields the formatted text, which fits the buffer. -/
theorem yieldsT_toHex (v : U256) : YieldsT (.toHex v) (hexText v) :=
  yieldsT_of_returnT (hexText_length_le v) fun _ => rfl

/-- Settles O27: the text TOHEX yields is `"0"` for zero and is read limb by limb otherwise. -/
theorem toHexFormatsLimbs : Obligations.ToHexFormatsLimbs := by
  refine fun c => ⟨decode_TOHEX _ rfl, fun hzero => ?_, fun m hm => ?_⟩
  · rw [hzero, ← hexText_zero]
    exact yieldsT_toHex 0
  · rw [← hexText_of_topLimb hm]
    exact yieldsT_toHex c.a

end Sys2Proof.Machine
end


section
/-! SUPPORT. The accessors (R130 to R132): within its range an index reads its limb or its bit and past the range it raises
IndexError; the bit test shifts and masks the limb, and the bits are the binary digits of the value. -/

namespace Sys2Proof.Machine

/-! ### The commands -/

/-- LIMB in range (R130). -/
theorem yieldsQ_limb (v : U256) {x : BitVec 64} (hx : x.toNat ≤ 3) : YieldsQ (.limb v x) (limb v x.toNat) :=
  yieldsQ_of_returnQ fun _ => if_pos (decide_eq_true hx)

/-- LIMB past its range (R130): the test reads all of `X`, so no index wraps to another limb. -/
theorem raises_limb (v : U256) {x : BitVec 64} (hx : 3 < x.toNat) : Raises (.limb v x) 2 :=
  raises_of_raise (e := .indexError) fun _ => if_neg fun h => absurd (of_decide_eq_true h) (Nat.not_le.mpr hx)

/-- BITSET in range (R131). -/
theorem yieldsQ_bitSet (v : U256) {x : BitVec 64} (hx : x.toNat ≤ 255) : YieldsQ (.bitSet v x) (bitOf v x.toNat) :=
  yieldsQ_of_returnQ fun _ => if_pos (decide_eq_true hx)

/-! ### The bits of a value (R132) -/

theorem bitOf_toNat (v : U256) (i : Nat) : (bitOf v i).toNat = (v.toNat.testBit i).toNat := by
  rw [bitOf_eq, BitVec.getLsbD]
  cases v.toNat.testBit i <;> rfl

/-- The bit tests below n are the value modulo `2^n`: one more index adds the next binary digit. -/
theorem sum_bitOf (v : U256) (n : Nat) :
    ∑ i ∈ Finset.range n, (bitOf v i).toNat * 2 ^ i = v.toNat % 2 ^ n := by
  induction n with
  | zero => simp [Nat.mod_one]
  | succ n ih => rw [Finset.sum_range_succ, ih, bitOf_toNat, mod_two_pow_succ', Nat.mul_comm]

/-! ### The statements -/

/-- Settles O34: BITSET's response is `bitOf`, which is R132's shifted and masked limb, and all 256 of its bits sum to the
value modulo `2^256`, the value itself. -/
theorem accessorsAgree : Obligations.AccessorsAgree := by
  refine fun v => ⟨bitOf v, limb v, fun i hi => ?_, fun j hj => ?_, fun _ _ => rfl, ?_⟩
  · have hx : (BitVec.ofNat 64 i).toNat = i := (BitVec.toNat_ofNat _ _).trans (Nat.mod_eq_of_lt (by omega))
    have h := yieldsQ_bitSet v (x := BitVec.ofNat 64 i) (by omega)
    rwa [hx] at h
  · have hx : (BitVec.ofNat 64 j).toNat = j := (BitVec.toNat_ofNat _ _).trans (Nat.mod_eq_of_lt (by omega))
    have h := yieldsQ_limb v (x := BitVec.ofNat 64 j) (by omega)
    rwa [hx] at h
  · rw [sum_bitOf, Nat.mod_eq_of_lt v.isLt]

/-- Settles O32: the index test splits LIMB into the limb it reads and IndexError. -/
theorem limbReadsOneLimb : Obligations.LimbReadsOneLimb := fun c =>
  ⟨decode_LIMB _ rfl, fun hx => ⟨limb c.a c.x.toNat, yieldsQ_limb c.a hx, limb_toNat c.a c.x.toNat⟩, raises_limb c.a⟩

end Sys2Proof.Machine
end

section
/-! SUPPORT. The adder (R140, R141): the limb step is the quotient and the remainder of the true sum, and the adder runs it
along the chain of carries, limb by limb. -/

namespace Sys2Proof.Machine

/-! ### The limb step (R141) -/

theorem addStep_sum_toNat (x y : Limb) (cin : BitVec 1) :
    (addStep x y cin).1.toNat = (x.toNat + y.toNat + cin.toNat) % 2 ^ 64 := by
  have h := addStep_spec x y cin
  have hs := (addStep x y cin).1.isLt
  omega

theorem addStep_carry_toNat (x y : Limb) (cin : BitVec 1) :
    (addStep x y cin).2.toNat = (x.toNat + y.toNat + cin.toNat) / 2 ^ 64 := by
  have h := addStep_spec x y cin
  have hs := (addStep x y cin).1.isLt
  omega

theorem addStep_carry_eq_one_iff (x y : Limb) (cin : BitVec 1) :
    (addStep x y cin).2 = 1 ↔ 2 ^ 64 ≤ x.toNat + y.toNat + cin.toNat := by
  have hone : (1 : BitVec 1).toNat = 1 := rfl
  have hc := (addStep x y cin).2.isLt
  rw [← BitVec.toNat_inj, hone]
  rw [addStep_carry_toNat] at hc ⊢
  omega

/-! ### The carry chain (R140) -/

/-- The carry into limb i, as the unit's limb steps make it (R140). -/
def carryInto (a b : U256) : Nat → BitVec 1
  | 0 => 0
  | i + 1 => (addStep (limb a i) (limb b i) (carryInto a b i)).2

/-- The sum word of limb i. -/
def sumLimb (a b : U256) (i : Nat) : Limb := (addStep (limb a i) (limb b i) (carryInto a b i)).1

/-- The adder's value is the tuple of the sum words, whatever its working registers hold on entry. -/
theorem adder_eq_sumLimbs (a b : U256) (w : Work) :
    (adder a b w).1 = ofLimbs (sumLimb a b 0) (sumLimb a b 1) (sumLimb a b 2) (sumLimb a b 3) := rfl

theorem carryInto_succ_toNat (a b : U256) (i : Nat) :
    (carryInto a b (i + 1)).toNat = (limbVal a i + limbVal b i + (carryInto a b i).toNat) / 2 ^ 64 := by
  rw [carryInto, addStep_carry_toNat, limb_toNat, limb_toNat]

theorem sumLimb_toNat (a b : U256) (i : Nat) :
    (sumLimb a b i).toNat = (limbVal a i + limbVal b i + (carryInto a b i).toNat) % 2 ^ 64 := by
  rw [sumLimb, addStep_sum_toNat, limb_toNat, limb_toNat]

/-- Limb i of a tuple given by a function of the index. -/
theorem limbVal_ofLimbs_apply (f : Nat → Limb) {i : Nat} (hi : i < 4) :
    limbVal (ofLimbs (f 0) (f 1) (f 2) (f 3)) i = (f i).toNat := by
  obtain ⟨h0, h1, h2, h3⟩ := limbVal_ofLimbs (f 0) (f 1) (f 2) (f 3)
  match i, hi with
  | 0, _ => exact h0
  | 1, _ => exact h1
  | 2, _ => exact h2
  | 3, _ => exact h3

/-- Limb i of the sum is the chain's sum word. -/
theorem limbVal_add (a b : U256) {i : Nat} (hi : i < 4) : limbVal (a + b) i = (sumLimb a b i).toNat := by
  rw [← adder_eq a b State.reset.work, adder_eq_sumLimbs, limbVal_ofLimbs_apply (sumLimb a b) hi]

/-! ### The command -/

/-- ADD yields the sum of 256-bit words (R140, R142). -/
theorem yields_add (a b : U256) : Yields (.add a b) (a + b) :=
  yields_of_returnR fun s => congrArg (returnR · s) (adder_eq a b s.work)

/-! ### The statements -/

/-- Settles O35: sum word and carry-out are the remainder and the quotient of the true sum, which is below `2 * 2^64`. -/
theorem adderLimbStep : Obligations.AdderLimbStep := fun x y cin =>
  ⟨addStep_sum_toNat x y cin, addStep_carry_toNat x y cin, addStep_carry_eq_one_iff x y cin⟩

/-- Settles O37: the chain is the unit's own, `carryInto`, and its sum words are the limbs of the sum. -/
theorem addFollowsCarryChain : Obligations.AddFollowsCarryChain := by
  refine fun c => ⟨decode_ADD _ rfl, c.a + c.b, fun i => (carryInto c.a c.b i).toNat, yields_add c.a c.b, rfl,
    fun i hi => ⟨?_, carryInto_succ_toNat c.a c.b i⟩, BitVec.toNat_add c.a c.b⟩
  rw [limbVal_add c.a c.b hi, sumLimb_toNat]

end Sys2Proof.Machine
end

section
/-! SUPPORT. The subtractor (R150, R151): the limb step splits the true difference into difference word and borrow-out, and
the subtractor runs it along the chain of borrows, limb by limb. -/

namespace Sys2Proof.Machine

/-! ### The limb step (R151) -/

theorem subStep_diff_toNat (x y : Limb) (bin : BitVec 1) :
    ((subStep x y bin).1.toNat : Int) = ((x.toNat : Int) - y.toNat - bin.toNat) % 2 ^ 64 := by
  have h := subStep_spec x y bin
  have hd := (subStep x y bin).1.isLt
  omega

theorem subStep_borrow_toNat (x y : Limb) (bin : BitVec 1) :
    ((subStep x y bin).2.toNat : Int) = if (x.toNat : Int) - y.toNat - bin.toNat < 0 then 1 else 0 := by
  have h := subStep_spec x y bin
  have hd := (subStep x y bin).1.isLt
  have hb := (subStep x y bin).2.isLt
  split <;> omega

theorem subStep_borrow_eq_one_iff (x y : Limb) (bin : BitVec 1) :
    (subStep x y bin).2 = 1 ↔ (x.toNat : Int) - y.toNat - bin.toNat < 0 := by
  have hone : (1 : BitVec 1).toNat = 1 := rfl
  have hb := subStep_borrow_toNat x y bin
  rw [← BitVec.toNat_inj, hone]
  split at hb <;> omega

/-! ### The borrow chain (R150) -/

/-- The borrow into limb i, as the unit's limb steps make it (R150). -/
def borrowInto (a b : U256) : Nat → BitVec 1
  | 0 => 0
  | i + 1 => (subStep (limb a i) (limb b i) (borrowInto a b i)).2

/-- The difference word of limb i. -/
def diffLimb (a b : U256) (i : Nat) : Limb := (subStep (limb a i) (limb b i) (borrowInto a b i)).1

/-- The subtractor's value is the tuple of the difference words, whatever its working registers hold on entry. -/
theorem subtractor_eq_diffLimbs (a b : U256) (w : Work) :
    (subtractor a b w).1 = ofLimbs (diffLimb a b 0) (diffLimb a b 1) (diffLimb a b 2) (diffLimb a b 3) := rfl

/-- The subtractor leaves the borrow out of limb 3 in its borrow register. -/
theorem subtractor_bw (a b : U256) (w : Work) : (subtractor a b w).2.bw = borrowInto a b 4 := rfl

theorem borrowInto_succ_toNat (a b : U256) (i : Nat) :
    ((borrowInto a b (i + 1)).toNat : Int) =
      if (limbVal a i : Int) - limbVal b i - (borrowInto a b i).toNat < 0 then 1 else 0 := by
  rw [borrowInto, subStep_borrow_toNat, limb_toNat, limb_toNat]

/-- The difference word is the true difference, with `2^64` added when the limb borrows. -/
theorem diffLimb_toNat (a b : U256) (i : Nat) :
    ((diffLimb a b i).toNat : Int) =
      if (limbVal a i : Int) - limbVal b i - (borrowInto a b i).toNat < 0
      then (limbVal a i : Int) - limbVal b i - (borrowInto a b i).toNat + 2 ^ 64
      else (limbVal a i : Int) - limbVal b i - (borrowInto a b i).toNat := by
  have hspec := subStep_spec (limb a i) (limb b i) (borrowInto a b i)
  rw [subStep_borrow_toNat, limb_toNat, limb_toNat] at hspec
  rw [diffLimb]
  split at hspec <;> omega

/-- Limb i of the difference is the chain's difference word. -/
theorem limbVal_sub (a b : U256) {i : Nat} (hi : i < 4) : limbVal (a - b) i = (diffLimb a b i).toNat := by
  rw [← subtractor_eq a b State.reset.work, subtractor_eq_diffLimbs, limbVal_ofLimbs_apply (diffLimb a b) hi]

/-- The last borrow is what the difference of 256-bit words exceeds the true difference by (R152). -/
theorem toNat_sub_lastBorrow (a b : U256) :
    ((a - b).toNat : Int) - 2 ^ 256 * (borrowInto a b 4).toNat = (a.toNat : Int) - b.toNat := by
  have h := subtractor_spec a b State.reset.work
  rwa [subtractor_eq, subtractor_bw] at h

theorem toNat_sub_eq_emod (a b : U256) : ((a - b).toNat : Int) = ((a.toNat : Int) - b.toNat) % 2 ^ 256 := by
  have h := toNat_sub_lastBorrow a b
  have hr := (a - b).isLt
  omega

theorem lastBorrow_eq_one_iff (a b : U256) : (borrowInto a b 4).toNat = 1 ↔ a.toNat < b.toNat := by
  have h := toNat_sub_lastBorrow a b
  have hr := (a - b).isLt
  have hbw := (borrowInto a b 4).isLt
  omega

/-! ### The command -/

/-- SUB yields the difference of 256-bit words (R150, R152). -/
theorem yields_sub (a b : U256) : Yields (.sub a b) (a - b) :=
  yields_of_returnR fun s => congrArg (returnR · s) (subtractor_eq a b s.work)

/-! ### The statements -/

/-- Settles O40: difference word and borrow-out are the remainder and the sign of the true difference, whose sign is the
comparison `x < y + bin`. -/
theorem subtractorLimbStep : Obligations.SubtractorLimbStep := fun x y bin =>
  ⟨subStep_diff_toNat x y bin, subStep_borrow_eq_one_iff x y bin,
    (subStep_borrow_eq_one_iff x y bin).trans (by omega)⟩

/-- Settles O41: the chain is the unit's own, `borrowInto`, and its difference words are the limbs of the difference. -/
theorem subFollowsBorrowChain : Obligations.SubFollowsBorrowChain := by
  refine fun c => ⟨decode_SUB _ rfl, c.a - c.b, fun i => (borrowInto c.a c.b i).toNat, yields_sub c.a c.b, rfl,
    fun i hi => ⟨?limb, borrowInto_succ_toNat c.a c.b i⟩, toNat_sub_eq_emod c.a c.b, ?lastBorrow⟩
  case limb => rw [limbVal_sub c.a c.b hi, diffLimb_toNat]
  case lastBorrow => exact Nat.cast_eq_one.trans (lastBorrow_eq_one_iff c.a c.b)

end Sys2Proof.Machine
end

section
/-! SUPPORT. The shift command (R160): SHL yields its operand's 256-bit word shifted by the whole of `X`, and an amount of
256 or more moves every bit out of the word. -/

namespace Sys2Proof.Machine

/-! ### The shifter's bits -/

/-- Bit k of the shifted value is bit `k - n` of the operand, and 0 below n (R160). -/
theorem shifter_getLsbD (v : U256) (n : Nat) {k : Nat} (hk : k < 256) :
    (shifter v n).getLsbD k = (decide (n ≤ k) && v.getLsbD (k - n)) := by
  rw [shifter_eq, BitVec.getLsbD_shiftLeft, decide_eq_true hk, Bool.true_and, ← decide_not]
  simp only [Nat.not_lt]

/-- An amount past the word gives zero, with no reduction of the amount (R160, R75). -/
theorem shifter_of_le (v : U256) {n : Nat} (hn : 256 ≤ n) : shifter v n = 0 :=
  (shifter_eq v n).trans (BitVec.shiftLeft_eq_zero hn)

/-! ### The command -/

/-- SHL yields the shifter's value, by the whole of `X` (R160, R75). -/
theorem yields_shl (v : U256) (n : BitVec 64) : Yields (.shl v n) (shifter v n.toNat) :=
  yields_of_returnR fun _ => rfl

/-! ### The statement -/

/-- Settles O45: the value is the shifter's, read bit by bit, past the word, and as a product. -/
theorem shlMovesBits : Obligations.ShlMovesBits := fun c =>
  ⟨decode_SHL _ rfl, shifter c.a c.x.toNat, yields_shl c.a c.x, fun _ hk => shifter_getLsbD c.a c.x.toNat hk,
    shifter_of_le c.a, shifter_toNat c.a c.x.toNat⟩

end Sys2Proof.Machine
end

section
/-! SUPPORT. The multiply command (R170): the accumulators are the `ACC` of the multiplier's loop pass by pass, each pass is
one of the unit's own additions or nothing, and 256 passes are the product. -/

namespace Sys2Proof.Machine

/-! ### The accumulators -/

/-- The bit test is the bit of the word (R131). -/
theorem bitOf_eq_one_iff (v : U256) (i : Nat) : bitOf v i = 1 ↔ v.getLsbD i = true := by
  rw [bitOf_eq]
  cases v.getLsbD i <;> decide

/-- `acc[i]` of R170: what i passes of the loop leave in `ACC`. The working registers on entry do not matter, so they are
those of the reset state. -/
def mulAcc (a b : U256) (i : Nat) : U256 := (mulLoop a b State.reset.work i).acc

/-- A set bit of the multiplier adds the shifted multiplicand (R170). -/
theorem mulAcc_succ_of_bitOf_eq_one {a b : U256} {i : Nat} (hi : i < 256) (hb : bitOf b i = 1) :
    mulAcc a b (i + 1) = mulAcc a b i + shifter a i := by
  rw [mulAcc, mulLoop_acc_succ a b _ i hi, if_pos ((bitOf_eq_one_iff b i).mp hb), shifter_eq, mulAcc]

/-- A clear bit of the multiplier leaves the accumulator alone (R170). -/
theorem mulAcc_succ_of_bitOf_ne_one {a b : U256} {i : Nat} (hi : i < 256) (hb : bitOf b i ≠ 1) :
    mulAcc a b (i + 1) = mulAcc a b i := by
  rw [mulAcc, mulLoop_acc_succ a b _ i hi, if_neg (mt (bitOf_eq_one_iff b i).mpr hb), mulAcc]

/-- The last accumulator is the product (R172). -/
theorem mulAcc_last (a b : U256) : mulAcc a b 256 = a * b := by
  rw [← multiplier_eq a b State.reset.work]
  simp only [mulAcc, multiplier, Config.mulSteps]

/-! ### The command -/

/-- MUL yields the product of the 256-bit words (R172). -/
theorem yields_mul (a b : U256) : Yields (.mul a b) (a * b) :=
  yields_of_returnR fun s => congrArg (returnR · s) (multiplier_eq a b s.work)

/-! ### The statement -/

/-- Settles O51: the accumulators are `mulAcc`, which an index's bit test, shift and addition take to the next one. -/
theorem mulAccumulatesShiftedMultiplicand : Obligations.MulAccumulatesShiftedMultiplicand := by
  refine fun c => ⟨decode_MUL _ rfl, mulAcc c.a c.b, rfl, fun i hi => ?_, ?_, ?_⟩
  · have hx : (BitVec.ofNat 64 i).toNat = i := (BitVec.toNat_ofNat _ _).trans (Nat.mod_eq_of_lt (by omega))
    have hbit := yieldsQ_bitSet c.b (x := BitVec.ofNat 64 i) (by omega)
    have hshift := yields_shl c.a (BitVec.ofNat 64 i)
    rw [hx] at hbit hshift
    refine ⟨bitOf c.b i, hbit, fun hb => ⟨shifter c.a i, hshift, ?_⟩, mulAcc_succ_of_bitOf_ne_one hi⟩
    rw [mulAcc_succ_of_bitOf_eq_one hi hb]
    exact yields_add _ _
  · rw [mulAcc_last]
    exact yields_mul c.a c.b
  · rw [mulAcc_last, BitVec.toNat_mul]

end Sys2Proof.Machine
end

section
/-! SUPPORT. The arithmetic laws of R183 to R191. ADD, SUB, MUL and SHL yield the sum, difference, product and shift of
256-bit words, and FROMU64 yields the word of its scalar, so each law of the unit is a law of `BitVec 256`. -/

namespace Sys2Proof.Machine

/-! ### Values -/

/-- Rewrites the value of an answer by a law of 256-bit words. -/
theorem Yields.trans_eq {i : Instr} {v w : U256} (h : Yields i v) (e : v = w) : Yields i w := e ▸ h

/-- FROMU64 yields the 256-bit word of its scalar (R100). -/
theorem yields_fromU64_ofNat (x : BitVec 64) : Yields (.fromU64 x) (BitVec.ofNat 256 x.toNat) :=
  (yields_fromU64 x).trans_eq <| by rw [← toNat_ofLimbs_scalar, BitVec.ofNat_toNat, BitVec.setWidth_eq]

theorem yields_fromU64_zero : Yields (.fromU64 0) 0 := yields_fromU64_ofNat 0

theorem yields_fromU64_one : Yields (.fromU64 1) 1 := yields_fromU64_ofNat 1

/-! ### Addition -/

theorem add_add_toNat (a b c : U256) : (a + b + c).toNat = (a.toNat + b.toNat + c.toNat) % 2 ^ 256 := by
  rw [BitVec.toNat_add, BitVec.toNat_add, Nat.mod_add_mod]

/-- Settles O39: ADD yields the sum of words, which is commutative and associative and has the identity 0. -/
theorem additionLaws : Obligations.AdditionLaws := by
  refine ⟨fun a b => ?comm, fun a b c => ?assoc, 0, yields_fromU64_zero, fun a => ⟨?addZero, ?zeroAdd⟩⟩
  case comm => exact ⟨a + b, yields_add a b, (yields_add b a).trans_eq (BitVec.add_comm b a)⟩
  case assoc =>
    exact ⟨a + b, b + c, a + b + c, yields_add a b, yields_add b c, yields_add (a + b) c,
      (yields_add a (b + c)).trans_eq (BitVec.add_assoc a b c).symm, add_add_toNat a b c⟩
  case addZero => exact (yields_add a 0).trans_eq (BitVec.add_zero a)
  case zeroAdd => exact (yields_add 0 a).trans_eq (BitVec.zero_add a)

/-! ### Subtraction -/

/-- Adding the negation subtracts (R153, R188). -/
theorem add_zero_sub (a b : U256) : a + (0 - b) = a - b := by rw [zero_sub, sub_eq_add_neg]

/-- A difference is its own negation exactly when twice it is 0 modulo 2^256 (R188). -/
theorem sub_eq_sub_swap_iff (a b : U256) : a - b = b - a ↔
    ((a.toNat : Int) - b.toNat) % 2 ^ 256 = 0 ∨ ((a.toNat : Int) - b.toNat) % 2 ^ 256 = 2 ^ 255 := by
  rw [← BitVec.toNat_inj, ← Nat.cast_inj (R := Int), toNat_sub_eq_emod, toNat_sub_eq_emod]
  omega

/-- SUB yields the same value either way round exactly when the differences of words are equal. -/
theorem exists_yields_sub_swap_iff (a b : U256) :
    (∃ v, Yields (.sub a b) v ∧ Yields (.sub b a) v) ↔ a - b = b - a := by
  constructor
  · rintro ⟨v, hab, hba⟩
    exact (yields_unique (yields_sub a b) hab).trans (yields_unique hba (yields_sub b a))
  · exact fun h => ⟨a - b, yields_sub a b, (yields_sub b a).trans_eq h.symm⟩

/-- Settles O43: SUB yields the difference of words; `(0 - 0) - 1` and `0 - (0 - 1)` differ. -/
theorem subtractionLaws : Obligations.SubtractionLaws := by
  refine ⟨fun a b => ?inverse, fun a => ⟨?self, ?zero⟩, ⟨1, yields_fromU64_one, ?max⟩, fun a b => ?swap, ?notAssoc⟩
  case inverse =>
    exact ⟨a - b, 0 - b, a + b, yields_sub a b, (yields_add (a - b) b).trans_eq (BitVec.sub_add_cancel a b),
      yields_sub 0 b, (yields_add a (0 - b)).trans_eq (add_zero_sub a b), yields_add a b,
      (yields_sub (a + b) b).trans_eq (BitVec.add_sub_cancel a b)⟩
  case self => exact (yields_sub a a).trans_eq (BitVec.sub_self a)
  case zero => exact (yields_sub a 0).trans_eq (BitVec.sub_zero a)
  case max => exact (yields_sub 0 1).trans_eq (by decide)
  case swap => exact (exists_yields_sub_swap_iff a b).trans (sub_eq_sub_swap_iff a b)
  case notAssoc =>
    exact ⟨0, 0, 1, 0 - 0, 0 - 1, 0 - 0 - 1, 0 - (0 - 1), yields_sub 0 0, yields_sub (0 - 0) 1, yields_sub 0 1,
      yields_sub 0 (0 - 1), by decide⟩

/-! ### Shift -/

theorem shifter_zero (v : U256) : shifter v 0 = v := (shifter_eq v 0).trans (BitVec.shiftLeft_zero v)

/-- A shift is a product with the shifted one (R187). -/
theorem shifter_eq_mul (v : U256) (n : Nat) : shifter v n = v * shifter 1 n := by
  rw [shifter_eq, shifter_eq, BitVec.shiftLeft_eq_mul_twoPow, BitVec.twoPow_eq]
  rfl

/-- A shift by one doubles (R187). -/
theorem shifter_one (v : U256) : shifter v 1 = v + v := by
  have htwo : shifter 1 1 = 2#256 := shifter_eq 1 1
  rw [shifter_eq_mul, htwo, BitVec.mul_two]

/-- Settles O48: the shifter at 0, past the word and at 1, and as a product. -/
theorem shiftLaws : Obligations.ShiftLaws := by
  refine ⟨fun v => ?zero, fun v n hn => ?pastWord, fun v => ?one, fun v n => ?product⟩
  case zero => exact (yields_shl v 0).trans_eq (shifter_zero v)
  case pastWord => exact (yields_shl v n).trans_eq (shifter_of_le v hn)
  case one => exact ⟨v + v, (yields_shl v 1).trans_eq (shifter_one v), yields_add v v⟩
  case product =>
    exact ⟨1, shifter 1 n.toNat, shifter v n.toNat, yields_fromU64_one, yields_shl 1 n, yields_shl v n,
      (yields_mul v _).trans_eq (shifter_eq_mul v n.toNat).symm⟩

/-! ### Multiplication -/

/-- `s(k)` of R191: a added k times to zero. -/
def repeatedSum (a : U256) : Nat → U256
  | 0 => 0
  | k + 1 => repeatedSum a k + a

/-- k additions of a from zero are the product of a and the word of k (R191). -/
theorem repeatedSum_eq_mul (a : U256) (k : Nat) : repeatedSum a k = a * BitVec.ofNat 256 k := by
  induction k with
  | zero => exact BitVec.mul_zero.symm
  | succ k ih => rw [repeatedSum, ih, BitVec.ofNat_add, BitVec.mul_succ]

/-- Settles O54: the sums are `repeatedSum`, and FROMU64 yields the word of its scalar. -/
theorem mulIsRepeatedAddition : Obligations.MulIsRepeatedAddition := fun a =>
  ⟨repeatedSum a, rfl, fun k => yields_add (repeatedSum a k) a, fun x =>
    ⟨BitVec.ofNat 256 x.toNat, yields_fromU64_ofNat x, (yields_mul a _).trans_eq (repeatedSum_eq_mul a x.toNat).symm⟩⟩

/-- Settles O55: MUL yields the product of words, which has the identity 1 and the zero 0. -/
theorem mulByOneAndZero : Obligations.MulByOneAndZero := by
  refine ⟨1, 0, yields_fromU64_one, yields_fromU64_zero, fun a => ⟨?mulOne, ?oneMul, ?mulZero, ?zeroMul⟩⟩
  case mulOne => exact (yields_mul a 1).trans_eq (BitVec.mul_one a)
  case oneMul => exact (yields_mul 1 a).trans_eq (BitVec.one_mul a)
  case mulZero => exact (yields_mul a 0).trans_eq BitVec.mul_zero
  case zeroMul => exact (yields_mul 0 a).trans_eq BitVec.zero_mul

end Sys2Proof.Machine
end

section
/-! SUPPORT. The causes of the errors (R201, R202, R213). A command's own operands decide whether it fails: a parser on a
string it does not accept, an accessor on an index past its range, and no command otherwise. -/

namespace Sys2Proof.Machine

/-! ### The two causes -/

/-- The command is a parser and its string is too long or holds a character that is no digit (R201). -/
def ParseFails : Instr → Prop
  | .fromHex str => ¬ Accepted hexval 64 str
  | .fromBin str => ¬ Accepted binval 256 str
  | _ => False

/-- The command is an accessor and its index is past the last limb or bit (R202). -/
def IndexFails : Instr → Prop
  | .limb _ x => 4 ≤ x.toNat
  | .bitSet _ x => 256 ≤ x.toNat
  | _ => False

theorem parseFails_iff (i : Instr) : ParseFails i ↔
    (∃ str, i = .fromHex str ∧ ¬ Accepted hexval 64 str) ∨ ∃ str, i = .fromBin str ∧ ¬ Accepted binval 256 str := by
  cases i <;> simp [ParseFails]

theorem indexFails_iff (i : Instr) : IndexFails i ↔
    (∃ v x, i = .limb v x ∧ 4 ≤ x.toNat) ∨ ∃ v x, i = .bitSet v x ∧ 256 ≤ x.toNat := by
  cases i <;> simp [IndexFails]

/-- No command has both causes, since no parser is an accessor. -/
theorem not_indexFails_of_parseFails {i : Instr} (hp : ParseFails i) : ¬ IndexFails i := by
  obtain ⟨str, rfl, -⟩ | ⟨str, rfl, -⟩ := (parseFails_iff i).mp hp <;> exact id

/-! ### The answers -/

/-- BITSET past its range (R131): the test reads all of `X`, so no index wraps to another bit. -/
theorem raises_bitSet (v : U256) {x : BitVec 64} (hx : 255 < x.toNat) : Raises (.bitSet v x) 2 :=
  raises_of_raise (e := .indexError) fun _ => if_neg fun h => absurd (of_decide_eq_true h) (Nat.not_le.mpr hx)

theorem raises_of_parseFails {i : Instr} (hp : ParseFails i) : Raises i 1 := by
  obtain ⟨str, rfl, hn⟩ | ⟨str, rfl, hn⟩ := (parseFails_iff i).mp hp
  · exact isParser_fromHex.raises hn
  · exact isParser_fromBin.raises hn

theorem raises_of_indexFails {i : Instr} (hi : IndexFails i) : Raises i 2 := by
  obtain ⟨v, x, rfl, hx⟩ | ⟨v, x, rfl, hx⟩ := (indexFails_iff i).mp hi
  · exact raises_limb v hx
  · exact raises_bitSet v hx

/-- A command with neither cause succeeds, in the register its format names. -/
theorem succeeds_of_not_fails {i : Instr} (hp : ¬ ParseFails i) (hi : ¬ IndexFails i) :
    ∃ r q t, AnswersWith i 0 r q t := by
  cases i with
  | fromU64 x => exact ⟨_, _, _, yields_fromU64 x⟩
  | fromLimbs a0 a1 a2 a3 => exact ⟨_, _, _, yields_fromLimbs a0 a1 a2 a3⟩
  | fromHex str => exact ⟨_, _, _, isParser_fromHex.yields (Classical.not_not.mp hp)⟩
  | fromBin str => exact ⟨_, _, _, isParser_fromBin.yields (Classical.not_not.mp hp)⟩
  | toHex v => exact ⟨_, _, _, yieldsT_toHex v⟩
  | limb v x => exact ⟨_, _, _, yieldsQ_limb v (Nat.not_lt.mp hi)⟩
  | bitSet v x => exact ⟨_, _, _, yieldsQ_bitSet v (Nat.not_lt.mp hi)⟩
  | add a b => exact ⟨_, _, _, yields_add a b⟩
  | sub a b => exact ⟨_, _, _, yields_sub a b⟩
  | shl v n => exact ⟨_, _, _, yields_shl v n⟩
  | mul a b => exact ⟨_, _, _, yields_mul a b⟩

/-! ### The statement -/

/-- Settles O17: a command has the first cause, the second or neither, and answers 1, 2 or 0 in turn. -/
theorem errorCausesAreExact : Obligations.ErrorCausesAreExact := by
  intro i s
  rw [← parseFails_iff, ← indexFails_iff]
  by_cases hp : ParseFails i
  · obtain ⟨u, hu, ⟨herr, -⟩, -⟩ := raises_of_parseFails hp s
    exact ⟨u, hu, by simp [herr, hp, not_indexFails_of_parseFails hp]⟩
  by_cases hi : IndexFails i
  · obtain ⟨u, hu, ⟨herr, -⟩, -⟩ := raises_of_indexFails hi s
    exact ⟨u, hu, by simp [herr, hp, hi]⟩
  · obtain ⟨r, q, t, h⟩ := succeeds_of_not_fails hp hi
    obtain ⟨u, hu, ⟨herr, -⟩, -⟩ := h s
    exact ⟨u, hu, by simp [herr, hp, hi]⟩

end Sys2Proof.Machine
end

section
/-! SUPPORT. The opcode map as one statement about its rows (R71, R72): a row selects its pattern alone, a command
assembled from a row reads only the fields of the row's format, and encoding it gives back exactly these fields (R73,
R79). -/

namespace Sys2Proof

open Machine (limb ofLimbs ofLimbs_limb)

/-! ### Rows -/

/-- A row compares all four bits, so it selects its pattern and nothing else (R72). -/
theorem selects_iff {row : OpRow} (hrow : row ∈ opcodeTable) (op : BitVec 4) :
    row.selects op = true ↔ op = row.pattern := by
  have hmask : ∀ r ∈ opcodeTable, r.mask = BitVec.allOnes 4 := by decide
  rw [OpRow.selects, hmask row hrow, BitVec.and_allOnes, beq_iff_eq]

/-- No two rows share a pattern (R72). -/
theorem eq_of_pattern_eq : ∀ row ∈ opcodeTable, ∀ row' ∈ opcodeTable, row'.pattern = row.pattern → row' = row := by
  decide

theorem mem_of_lookup {op : BitVec 4} {row : OpRow} (h : lookup op = some row) : row ∈ opcodeTable :=
  List.mem_of_find?_eq_some h

theorem selects_of_lookup {op : BitVec 4} {row : OpRow} (h : lookup op = some row) : row.selects op = true :=
  List.find?_some (p := fun r : OpRow => r.selects op) h

theorem not_selects_of_lookup_none {op : BitVec 4} (h : lookup op = none) {row : OpRow} (hrow : row ∈ opcodeTable) :
    row.selects op = false :=
  Bool.eq_false_iff.mpr (List.find?_eq_none.mp h row hrow)

/-! ### Decoding through the row -/

theorem decode_of_lookup {c : Command} {row : OpRow} (h : lookup c.op = some row) :
    decode c = .ok (assemble row.mnemonic c) := by
  rw [decode, h]

theorem decode_of_lookup_none {c : Command} (h : lookup c.op = none) : decode c = .error (.reservedOpcode c.op) := by
  rw [decode, h]

/-- What decodes was assembled from the row its opcode selects. -/
theorem decode_eq_ok_iff {c : Command} {i : Instr} :
    decode c = .ok i ↔ ∃ row, lookup c.op = some row ∧ assemble row.mnemonic c = i := by
  cases h : lookup c.op with
  | none => simp [decode_of_lookup_none h]
  | some row => simp [decode_of_lookup h]

/-! ### The fields a format reads -/

/-- The port with every field the format does not read cleared (R71, R79). -/
def readFields (f : Format) (c : Command) : Command :=
  { op := c.op
    a := if f.readsA then c.a else 0
    b := if f.readsB then c.b else 0
    x := if f.readsX then c.x else 0
    s := if f.readsS then c.s else [] }

/-- Ports that agree on the fields the format reads are the same port once the others are cleared. -/
theorem readFields_congr {f : Format} {c d : Command} (hop : d.op = c.op) (ha : f.readsA = true → d.a = c.a)
    (hb : f.readsB = true → d.b = c.b) (hx : f.readsX = true → d.x = c.x) (hs : f.readsS = true → d.s = c.s) :
    readFields f d = readFields f c := by
  rw [readFields, readFields, hop, ite_congr rfl ha fun _ => rfl, ite_congr rfl hb fun _ => rfl,
    ite_congr rfl hx fun _ => rfl, ite_congr rfl hs fun _ => rfl]

/-- A row's command takes no operand from a field its format does not read (R73). -/
theorem assemble_readFields (c : Command) :
    ∀ row ∈ opcodeTable, assemble row.mnemonic (readFields row.format c) = assemble row.mnemonic c := by
  simp only [opcodeTable, List.forall_mem_cons]
  exact ⟨rfl, rfl, rfl, rfl, rfl, rfl, rfl, rfl, rfl, rfl, rfl, List.forall_mem_nil _⟩

/-- Encoding a row's command drives the row's pattern and the fields its format reads (R79). -/
theorem encode_assemble (c : Command) :
    ∀ row ∈ opcodeTable, encode (assemble row.mnemonic c) = { readFields row.format c with op := row.pattern } := by
  have hlimbs : encode (assemble .FROMLIMBS c) = { readFields .aR c with op := 0x1 } := by
    rw [assemble, encode, ofLimbs_limb]
    rfl
  simp only [opcodeTable, List.forall_mem_cons]
  exact ⟨rfl, hlimbs, rfl, rfl, rfl, rfl, rfl, rfl, rfl, rfl, rfl, List.forall_mem_nil _⟩

/-! ### Encoding -/

theorem decode_encode (i : Instr) : decode (encode i) = .ok i := by
  cases i with
  | fromU64 v => exact decode_FROMU64 _ rfl
  | fromLimbs a0 a1 a2 a3 =>
    rw [decode_FROMLIMBS (encode (.fromLimbs a0 a1 a2 a3)) rfl]
    simp [encode]
  | fromHex str => exact decode_FROMHEX _ rfl
  | fromBin str => exact decode_FROMBIN _ rfl
  | toHex v => exact decode_TOHEX _ rfl
  | limb v x => exact decode_LIMB _ rfl
  | bitSet v x => exact decode_BITSET _ rfl
  | add a b => exact decode_ADD _ rfl
  | sub a b => exact decode_SUB _ rfl
  | shl v n => exact decode_SHL _ rfl
  | mul a b => exact decode_MUL _ rfl

/-- Every port carries the empty string, which is what a command with no string drives (R79). -/
theorem fits_nil (m : StrMax) : m.fits [] = true := by
  cases m with
  | none => rfl
  | some n => exact decide_eq_true (Nat.zero_le n)

/-- The port of a command fits when the command does: its only string is the command's own, or the empty one. -/
theorem wellFormed_encode {m : StrMax} {i : Instr} (h : i.wellFormed m = true) : (encode i).wellFormed m = true := by
  cases i with
  | fromHex str => exact h
  | fromBin str => exact h
  | _ => exact fits_nil m

/-- Encoding what a port decodes to clears the fields its format does not read. -/
theorem encode_of_decode {c : Command} {i : Instr} (h : decode c = .ok i) :
    ∃ row, lookup c.op = some row ∧ encode i = readFields row.format c := by
  obtain ⟨row, hrow, rfl⟩ := decode_eq_ok_iff.mp h
  refine ⟨row, hrow, ?_⟩
  rw [encode_assemble c row (mem_of_lookup hrow), ← lookup_pattern c.op row hrow]
  rfl

/-! ### The statements -/

/-- Settles O3: `decode_encode` is the one direction, and `encode_of_decode` the other. -/
theorem decodeEncodeAgree : Obligations.DecodeEncodeAgree := fun _ i _ hwf =>
  ⟨decode_encode i, wellFormed_encode hwf, fun _ hc => encode_of_decode hc⟩

/-- Settles O1: the table is evaluated, and every opcode's command is the decoder's law for it. -/
theorem opcodeMapDecodes : Obligations.OpcodeMapDecodes :=
  ⟨by decide, fun c =>
    ⟨decode_FROMU64 _ rfl, decode_FROMLIMBS _ rfl, decode_FROMHEX _ rfl, decode_FROMBIN _ rfl, decode_TOHEX _ rfl,
      decode_LIMB _ rfl, decode_BITSET _ rfl, decode_ADD _ rfl, decode_SUB _ rfl, decode_SHL _ rfl, decode_MUL _ rfl,
      fun op hop => decode_reserved { c with op := op } hop⟩⟩

/-- An opcode up to 0xA selects one row, and every port with it decodes to that row's mnemonic (R72, R82). -/
theorem one_row_of_le {op : BitVec 4} (hop : op.toNat ≤ 0xA) :
    ∃ row, row ∈ opcodeTable ∧ row.selects op = true ∧
      (∀ row', row' ∈ opcodeTable → row'.selects op = true → row' = row) ∧
      ∀ c : Command, c.op = op → ∃ i, decode c = .ok i ∧ i.mnemonic = row.mnemonic := by
  obtain ⟨m, f, hrow, -⟩ := lookup_eq op hop
  have hmem := mem_of_lookup hrow
  refine ⟨_, hmem, selects_of_lookup hrow, fun row' hmem' hsel' => ?unique, fun c hc => ?decodes⟩
  case unique => exact eq_of_pattern_eq _ hmem row' hmem' ((selects_iff hmem' op).mp hsel').symm
  case decodes => exact ⟨_, decode_of_lookup (hc ▸ hrow), assemble_mnemonic m c⟩

/-- Settles O2: 0xA is the last opcode with a row, and the decoder looks at nothing but the row. -/
theorem eachOpcodeHasOneVerdict : Obligations.EachOpcodeHasOneVerdict := by
  refine ⟨fun op => ?_, fun c d hcd => ?_⟩
  · rcases Nat.lt_or_ge op.toNat 0xB with hop | hop
    · exact .inl ⟨Nat.le_of_lt_succ hop, one_row_of_le (Nat.le_of_lt_succ hop)⟩
    · have hnone := lookup_reserved op hop
      exact .inr ⟨hop, fun row => not_selects_of_lookup_none hnone, fun c hc => hc ▸ decode_reserved c (hc ▸ hop)⟩
  · cases hrow : lookup c.op with
    | some row =>
      exact .inl ⟨_, _, decode_of_lookup hrow, decode_of_lookup (hcd ▸ hrow), by simp only [assemble_mnemonic]⟩
    | none =>
      refine .inr ⟨decode_of_lookup_none hrow, ?_⟩
      rw [hcd] at hrow ⊢
      exact decode_of_lookup_none hrow

end Sys2Proof
end

section
/-! SUPPORT. The response of a command as a function of the command (R30), and the step as that response written to the
registers (R55, R56): what a step does with each host action, the response registers' invariant, and the registers a
format may use (R78). -/

namespace Sys2Proof.Machine

/-! ### The response of a command (R30) -/

/-- The response of each command, from its operands alone. -/
def responseOf : Instr → Response
  | .fromU64 v => .ofR (ofLimbs v 0 0 0)
  | .fromLimbs a0 a1 a2 a3 => .ofR (ofLimbs a0 a1 a2 a3)
  | .fromHex str => if accepts hexFormat str then .ofR (parsed hexFormat str) else .ofError .parseError
  | .fromBin str => if accepts binFormat str then .ofR (parsed binFormat str) else .ofError .parseError
  | .toHex v => .ofT (hexText v)
  | .limb v x => if limbIndexOk x then .ofQ (limb v x.toNat) else .ofError .indexError
  | .bitSet v x => if bitIndexOk x then .ofQ (bitOf v x.toNat) else .ofError .indexError
  | .add a b => .ofR (a + b)
  | .sub a b => .ofR (a - b)
  | .shl v n => .ofR (shifter v n.toNat)
  | .mul a b => .ofR (a * b)

/-- A command completes with its response, whatever the working registers hold (R29, R30). -/
theorem exec_eq_complete_responseOf (i : Instr) (s : State) : exec i s = .next (s.complete (responseOf i)) := by
  cases i with
  | fromU64 v => rfl
  | fromLimbs a0 a1 a2 a3 => rfl
  | fromHex str =>
    simp only [exec, execFromHex, responseOf, convert_eq_parsed]
    split <;> rfl
  | fromBin str =>
    simp only [exec, execFromBin, responseOf, convert_eq_parsed]
    split <;> rfl
  | toHex v => rfl
  | limb v x =>
    simp only [exec, execLimb, responseOf]
    split <;> rfl
  | bitSet v x =>
    simp only [exec, execBitSet, responseOf]
    split <;> rfl
  | add a b => exact congrArg (returnR · s) (adder_eq a b s.work)
  | sub a b => exact congrArg (returnR · s) (subtractor_eq a b s.work)
  | shl v n => rfl
  | mul a b => exact congrArg (returnR · s) (multiplier_eq a b s.work)

/-- The response to a port: its command's, or IllegalOp for a reserved opcode (R74). -/
def portResponse (c : Command) : Response :=
  match decode c with
  | .ok i => responseOf i
  | .error _ => .ofError .illegalOp

theorem portResponse_of_decode {c : Command} {i : Instr} (h : decode c = .ok i) : portResponse c = responseOf i := by
  rw [portResponse, h]

theorem portResponse_of_reject {c : Command} {e : Reject} (h : decode c = .error e) :
    portResponse c = .ofError .illegalOp := by
  rw [portResponse, h]

/-! ### The step, host action by host action -/

/-- A command presented with reset released is answered with its port's response (R30, R55). -/
theorem step_presenting_eq (s : State) (c : Command) (rest : List HostAction) :
    step (s.presenting c rest) =
      .next (State.complete { s with rst := false, port := c, script := rest } (portResponse c)) := by
  rw [step_presenting, portResponse]
  cases decode c with
  | ok i => exact exec_eq_complete_responseOf i _
  | error e => rfl

theorem step_of_nil {s : State} (h : s.script = []) : step s = .next s.idle := by
  simp [step, nextEvent, h]

theorem step_of_assertReset {s : State} {rest : List HostAction} (h : s.script = .assertReset :: rest) :
    step s = .next (s.setReset true rest) := by
  simp [step, nextEvent, h]

theorem step_of_releaseReset {s : State} {rest : List HostAction} (h : s.script = .releaseReset :: rest) :
    step s = .next (s.setReset false rest) := by
  simp [step, nextEvent, h]

/-- A command presented while reset is asserted is not accepted (R220). -/
theorem step_of_present_asserted {s : State} {c : Command} {rest : List HostAction} (h : s.script = .present c :: rest)
    (hr : s.rst = true) : step s = .next (s.sample c rest).resetUnit := by
  simp [step, nextEvent, presented, h, hr]

theorem eq_presenting {s : State} {c : Command} {rest : List HostAction} (h : s.script = .present c :: rest)
    (hr : s.rst = false) : s = s.presenting c rest := by
  rw [State.presenting, ← h, ← hr]

theorem step_of_present_released {s : State} {c : Command} {rest : List HostAction} (h : s.script = .present c :: rest)
    (hr : s.rst = false) : step s = .next ((s.sample c rest).complete (portResponse c)) := by
  conv_lhs => rw [eq_presenting h hr]
  rw [step_presenting_eq, ← hr]
  rfl

/-- Every step answers, and leaves the reset values, or a released signal and the registers as they were or as a port's
response. -/
theorem step_answers (s : State) : ∃ t : State, step s = .next t ∧
    (t.resp = Response.reset ∨ t.rst = false ∧ (t.resp = s.resp ∨ ∃ c, t.resp = portResponse c)) := by
  obtain ⟨-, hidle⟩ | ⟨rest, -, hassert⟩ | ⟨rest, -, hrelease⟩ | ⟨c, rest, -, -, hdropped⟩ |
    ⟨c, rest, i, -, hr, hd, hrun⟩ | ⟨c, rest, e, -, hr, hd, hreserved⟩ := step_cases s
  · refine ⟨_, hidle, ?_⟩
    cases hr : s.rst with
    | true => exact .inl (by rw [idle_of_asserted hr, resetUnit_resp])
    | false => exact .inr (by rw [idle_of_released hr]; exact ⟨hr, .inl rfl⟩)
  · exact ⟨_, hassert, .inl rfl⟩
  · refine ⟨_, hrelease, ?_⟩
    cases hr : s.rst with
    | true => exact .inl (by rw [setReset_false_of_asserted hr, resetUnit_resp])
    | false => exact .inr (by rw [setReset_false_of_released hr]; exact ⟨hr, .inl rfl⟩)
  · exact ⟨_, hdropped, .inl rfl⟩
  · have hresp := (portResponse_of_decode hd).symm
    exact ⟨_, hrun.trans (exec_eq_complete_responseOf i _), .inr ⟨hr, .inr ⟨c, hresp⟩⟩⟩
  · exact ⟨_, hreserved, .inr ⟨hr, .inr ⟨c, (portResponse_of_reject hd).symm⟩⟩⟩

/-! ### The invariant (R25, R31, R58, R205) -/

/-- A response with at most one register in use, and none with an error, is shaped. -/
theorem shaped_of_respIs {ρ : Response} {err : BitVec 2} {r : U256} {q : BitVec 64} {t : Str} (h : RespIs ρ err r q t)
    (ht : ∀ ch ∈ t, LowerHex ch) (herr : err ≠ 0 → r = 0 ∧ q = 0 ∧ t = []) (hr : r ≠ 0 → q = 0 ∧ t = [])
    (hq : q ≠ 0 → t = []) : ρ.Shaped := by
  obtain ⟨rfl, rfl, rfl, -, hlen, hle, hbuf⟩ := h
  have hzero : t = [] → ρ.tlen = 0 := by
    rintro rfl
    exact BitVec.eq_of_toNat_eq hlen
  refine ⟨hlen.trans_le hle, fun k hk => ?digits, fun k hk => ?zeros, fun h => ?error, fun h => ?value,
    fun h => hzero (hq h)⟩
  case digits =>
    rw [hbuf, List.getD_eq_getElem _ _ (hk.trans_eq hlen)]
    exact ht _ (List.getElem_mem _)
  case zeros => rw [hbuf, List.getD_eq_default _ _ (hlen.symm.trans_le hk)]
  case error => exact (herr h).imp_right (And.imp_right hzero)
  case value => exact (hr h).imp_right hzero

theorem shaped_ofR (v : U256) : (Response.ofR v).Shaped :=
  shaped_of_respIs (respIs_ofR v) (List.forall_mem_nil _) (absurd rfl) (fun _ => ⟨rfl, rfl⟩) fun _ => rfl

theorem shaped_ofQ (q : BitVec 64) : (Response.ofQ q).Shaped :=
  shaped_of_respIs (respIs_ofQ q) (List.forall_mem_nil _) (absurd rfl) (absurd rfl) fun _ => rfl

theorem shaped_ofT {t : Str} (hlen : t.length ≤ 64) (ht : ∀ ch ∈ t, LowerHex ch) : (Response.ofT t).Shaped :=
  shaped_of_respIs (respIs_ofT t hlen) ht (absurd rfl) (absurd rfl) (absurd rfl)

theorem shaped_ofError (e : Cause) : (Response.ofError e).Shaped :=
  shaped_of_respIs (respIs_ofError e) (List.forall_mem_nil _) (fun _ => ⟨rfl, rfl, rfl⟩) (absurd rfl) (absurd rfl)

theorem shaped_reset : Response.reset.Shaped :=
  shaped_of_respIs respIs_reset (List.forall_mem_nil _) (absurd rfl) (absurd rfl) (absurd rfl)

theorem shaped_responseOf (i : Instr) : (responseOf i).Shaped := by
  cases i with
  | fromHex str => exact iteInduction (motive := Response.Shaped) (fun _ => shaped_ofR _) fun _ => shaped_ofError _
  | fromBin str => exact iteInduction (motive := Response.Shaped) (fun _ => shaped_ofR _) fun _ => shaped_ofError _
  | limb v x => exact iteInduction (motive := Response.Shaped) (fun _ => shaped_ofQ _) fun _ => shaped_ofError _
  | bitSet v x => exact iteInduction (motive := Response.Shaped) (fun _ => shaped_ofQ _) fun _ => shaped_ofError _
  | toHex v => exact shaped_ofT (hexText_length_le v) (hexText_lowerHex v)
  | _ => exact shaped_ofR _

theorem shaped_portResponse (c : Command) : (portResponse c).Shaped := by
  rw [portResponse]
  split
  · exact shaped_responseOf _
  · exact shaped_ofError _

theorem inv_of_reset {s : State} (h : s.resp = Response.reset) : s.Inv := ⟨h ▸ shaped_reset, fun _ => h⟩

theorem inv_of_released {s : State} (h : s.resp.Shaped) (hr : s.rst = false) : s.Inv :=
  ⟨h, fun ha => absurd (ha.symm.trans hr) (by decide)⟩

/-- Settles O14: each kind of answer of `step_answers` meets the invariant. -/
theorem stepKeepsInvariant : Obligations.StepKeepsInvariant := by
  rintro s u ⟨hshaped, -⟩ hu
  obtain ⟨t, ht, hcase⟩ := step_answers s
  obtain rfl : t = u := Host.Outcome.next.inj (ht.symm.trans hu)
  rcases hcase with hreset | ⟨hr, hkept | ⟨c, hc⟩⟩
  · exact inv_of_reset hreset
  · exact inv_of_released (hkept ▸ hshaped) hr
  · exact inv_of_released (hc ▸ shaped_portResponse c) hr

/-- Settles O13: the reset state holds the reset values. -/
theorem resetStateInvariant : Obligations.ResetStateInvariant := inv_of_reset rfl

/-- Settles O12: `step_answers` gives every step's next state. -/
theorem everyStepAnswers : Obligations.EveryStepAnswers := fun s =>
  let ⟨t, ht, _⟩ := step_answers s
  ⟨t, ht⟩

/-! ### Commands -/

/-- Settles O6: a command that decodes is run where `step_presenting` says. -/
theorem stepRunsDecodedCommand : Obligations.StepRunsDecodedCommand := by
  intro s c rest i hi
  rw [step_presenting, hi]

/-- Settles O7: the function is `portResponse`. -/
theorem responseIsFunctionOfCommand : Obligations.ResponseIsFunctionOfCommand :=
  ⟨portResponse, fun s c rest => ⟨_, step_presenting_eq s c rest, rfl, rfl, rfl, rfl⟩⟩

/-- Settles O5: a reserved opcode's response is IllegalOp's. -/
theorem reservedOpcodeRaisesIllegalOp : Obligations.ReservedOpcodeRaisesIllegalOp := by
  refine fun s c rest hop => ⟨_, step_presenting_eq s c rest, ?_, rfl, rfl, rfl⟩
  rw [complete_resp, portResponse_of_reject (decode_reserved c hop)]
  exact respIs_ofError .illegalOp

/-- Settles O4: ports that are the same once the unread fields are cleared decode alike, and the response is the decoded
command's. -/
theorem unreadFieldsDoNotMatter : Obligations.UnreadFieldsDoNotMatter := by
  intro c d row hrow hop ha hb hx hs
  have hdecode : decode d = decode c := by
    rw [decode_of_lookup hrow, decode_of_lookup (hop ▸ hrow), ← assemble_readFields c row (mem_of_lookup hrow),
      ← assemble_readFields d row (mem_of_lookup hrow), readFields_congr hop ha hb hx hs]
  refine ⟨hdecode, fun s s' rest rest' => ⟨_, _, step_presenting_eq s c rest, step_presenting_eq s' d rest', ?_⟩⟩
  rw [complete_resp, complete_resp, portResponse, portResponse, hdecode]

/-- After `k + 1` steps of a host that presents a list of commands the registers hold the k-th response (R55). -/
theorem kthResponse_of_run (s : State) (cs : List Command) (k : Nat) (hk : k < cs.length) :
    ∃ u : State, Host.Core.run core (k + 1) { s with rst := false, script := cs.map .present } = .next u ∧
      u.resp = portResponse cs[k] ∧ u.port = cs[k] ∧ u.script = (cs.drop (k + 1)).map .present := by
  induction cs generalizing s k with
  | nil => exact absurd hk (Nat.not_lt_zero k)
  | cons c cs ih =>
    have hfirst := step_presenting_eq s c (cs.map .present)
    cases k with
    | zero => exact ⟨_, run_succ 0 hfirst, rfl, rfl, rfl⟩
    | succ k =>
      obtain ⟨u, hrun, hu⟩ := ih (State.complete { s with rst := false, port := c, script := cs.map .present }
        (portResponse c)) k (Nat.lt_of_succ_lt_succ hk)
      exact ⟨u, (run_succ (k + 1) hfirst).trans hrun, hu⟩

/-- Settles O8: the first command is answered alone from any state, and `kthResponse_of_run` follows the list. -/
theorem registersHoldKthResponse : Obligations.RegistersHoldKthResponse :=
  ⟨portResponse, fun s c rest => ⟨_, step_presenting_eq s c rest, rfl⟩, kthResponse_of_run⟩

/-- Settles O9: with nothing presented a step idles. -/
theorem registersHoldBetweenCommands : Obligations.RegistersHoldBetweenCommands := by
  intro s hr hs
  rw [step_of_nil hs, idle_of_released hr]

/-! ### Reset (R220, R221) -/

/-- Settles O10: the reset state by evaluation, and each action by the law of its step. -/
theorem resetSignalResetsUnit : Obligations.ResetSignalResetsUnit :=
  ⟨⟨respIs_reset, rfl⟩, fun _ _ _ =>
    ⟨⟨_, step_of_assertReset rfl, respIs_reset, rfl, rfl⟩,
      ⟨_, step_of_present_asserted rfl rfl, respIs_reset, rfl, rfl⟩,
      ⟨_, step_of_releaseReset rfl, respIs_reset, rfl, rfl⟩⟩⟩

/-- A presented command is taken off the host's list, accepted or not. -/
theorem step_of_present {s : State} {c : Command} {rest : List HostAction} (h : s.script = .present c :: rest) :
    ∃ t : State, step s = .next t ∧ t.script = rest := by
  cases hr : s.rst with
  | true => exact ⟨_, step_of_present_asserted h hr, rfl⟩
  | false => exact ⟨_, step_of_present_released h hr, rfl⟩

/-- Settles O11: whatever the command leaves, asserting reset overwrites the response registers. -/
theorem resetErasesCommand : Obligations.ResetErasesCommand := by
  intro s c rest
  obtain ⟨t, ht, hscript⟩ := step_of_present (s := { s with script := .present c :: .assertReset :: rest }) rfl
  exact ⟨_, _, (run_succ 1 ht).trans (run_succ 0 (step_of_assertReset hscript)), run_succ 0 (step_of_assertReset rfl),
    respIs_reset, rfl, rfl, rfl⟩

end Sys2Proof.Machine
end

section
/-! SUPPORT. Strings as numbers (R77, R111 to R114, R163): the character table, what the parsers read as one numeral,
and the bits FROMBIN takes from single characters. -/

namespace Sys2Proof.Machine

/-! ### The character table (R77) -/

theorem hexval_hexchar : ∀ d, d < 16 → hexval (hexchar d) = some d := by decide

@[simp] theorem binval_char_zero : binval 0x30#8 = some 0 := by decide
@[simp] theorem binval_char_one : binval 0x31#8 = some 1 := by decide

theorem hexchar_eq (d : Nat) :
    hexchar d = if d ≤ 9 then 0x30 + BitVec.ofNat 8 d else 0x61 + BitVec.ofNat 8 (d - 10) := by
  rw [hexchar, BitVec.ofNat_add, BitVec.ofNat_add]
  rfl

/-- A binary digit's code, as a word and as a number. -/
theorem binval_eq (ch : Byte) : binval ch = if ch = 0x30 then some 0 else if ch = 0x31 then some 1 else none := by
  have h0 : ch = 0x30 ↔ ch.toNat = 0x30 := BitVec.toNat_inj.symm
  have h1 : ch = 0x31 ↔ ch.toNat = 0x31 := BitVec.toNat_inj.symm
  simp only [binval, h0, h1]

/-- Settles O20: codes are compared as numbers on both sides. -/
theorem characterTable : Obligations.CharacterTable :=
  ⟨fun ch => ⟨rfl, binval_eq ch⟩, fun d hd => ⟨hexchar_eq d, hexval_hexchar d hd⟩⟩

/-! ### The numeral of a string (R114) -/

theorem readFrom_eq_numeral (f : DigitFormat) (str : Str) : readFrom f 0 str = numeral f.dv f.base str := by
  have h := readFrom_slice f str (Nat.zero_le str.length) le_rfl
  rwa [List.take_length, List.drop_zero] at h

theorem IsParser.yields_numeral {cmd : Str → Instr} {f : DigitFormat} {str : Str} (p : IsParser cmd f)
    (ha : Accepted f.dv f.maxLen str) : ∃ v : U256, Yields (cmd str) v ∧ v.toNat = numeral f.dv f.base str :=
  ⟨parsed f str, p.yields ha, (parsed_toNat f p.fits str ha.1).trans (readFrom_eq_numeral f str)⟩

/-- Settles O25: both commands are parsers. -/
theorem parsedValueIsNumeral : Obligations.ParsedValueIsNumeral := fun _ =>
  ⟨isParser_fromHex.yields_numeral, isParser_fromBin.yields_numeral⟩

/-! ### The bits of a binary string (R113) -/

theorem binval_getD_eq_one_iff (ch : Byte) : (binval ch).getD 0 = 1 ↔ binval ch = some 1 := by
  cases binval ch <;> simp

/-- Bit i of the number read is the i-th character from the right, by induction from the right end. -/
theorem readFrom_binFormat_testBit (str : Str) (i : Nat) : (readFrom binFormat 0 str).testBit i = true ↔
    i < str.length ∧ binval (str.getD (str.length - 1 - i) 0) = some 1 := by
  induction str using List.reverseRecOn generalizing i with
  | nil => simp [readFrom]
  | append_singleton str ch ih =>
    have hdigit := binval_lt ch
    have hread : readFrom binFormat 0 (str ++ [ch]) = readFrom binFormat 0 str * 2 + (binval ch).getD 0 :=
      readFrom_concat binFormat str ch
    rw [hread]
    cases i with
    | zero =>
      rw [Nat.testBit_zero, decide_eq_true_iff, Nat.mul_add_mod_self_right, Nat.mod_eq_of_lt hdigit,
        binval_getD_eq_one_iff]
      simp
    | succ i =>
      have hhalf : (readFrom binFormat 0 str * 2 + (binval ch).getD 0) / 2 = readFrom binFormat 0 str := by omega
      have hpos : (str ++ [ch]).length - 1 - (i + 1) = str.length - 1 - i := by simp; omega
      rw [Nat.testBit_succ, hhalf, ih, hpos]
      by_cases hi : i < str.length
      · rw [List.getD_append _ _ _ _ (by omega)]
        simp [hi]
      · simp [hi]

theorem parsed_binFormat_getLsbD {str : Str} (hl : str.length ≤ 256) (i : Nat) :
    (parsed binFormat str).getLsbD i = true ↔
      i < str.length ∧ binval (str.getD (str.length - 1 - i) 0) = some 1 := by
  rw [BitVec.getLsbD, parsed_toNat binFormat binFormat_fits str hl, readFrom_binFormat_testBit]

/-- Settles O24: the bits of the parsed value. -/
theorem fromBinPlacesCharacters : Obligations.FromBinPlacesCharacters := fun str ha =>
  ⟨parsed binFormat str, isParser_fromBin.yields ha, fun i _ => parsed_binFormat_getLsbD ha.1 i⟩

/-! ### Shifting a binary string (R163) -/

/-- The string of R163: the first n of the 256 digits dropped, n zeros appended. -/
def shiftedDigits (v : U256) (n : Nat) : Str := (bin256 v).drop n ++ List.replicate n 0x30#8

theorem shiftedDigits_length (v : U256) {n : Nat} (hn : n ≤ 256) : (shiftedDigits v n).length = 256 := by
  simp [shiftedDigits, bin256, hn]

/-- Character k of the shifted string is the digit n places to the right, and zero past the right end. -/
theorem shiftedDigits_getD (v : U256) {n k : Nat} (hn : n ≤ 256) (hk : k < 256) :
    (shiftedDigits v n).getD k 0 = if k + n < 256 ∧ v.getLsbD (255 - (k + n)) then 0x31#8 else 0x30#8 := by
  have hlen : ((bin256 v).drop n).length = 256 - n := by simp [bin256]
  rw [shiftedDigits]
  by_cases hkn : k + n < 256
  · rw [List.getD_append _ _ _ _ (by omega), List.getD_eq_getElem _ _ (by omega), List.getElem_drop]
    simp [bin256, hkn, Nat.add_comm n k]
  · rw [List.getD_append_right _ _ _ _ (by omega), List.getD_replicate _ (by omega)]
    simp [hkn]

theorem accepted_shiftedDigits (v : U256) {n : Nat} (hn : n ≤ 256) : Accepted binval 256 (shiftedDigits v n) := by
  have hlen := shiftedDigits_length v hn
  refine ⟨hlen.le, fun k hk => ?_⟩
  rw [shiftedDigits_getD v hn (hlen ▸ hk)]
  split <;> decide

/-- Reading the shifted string bit by bit gives the shifted value. -/
theorem parsed_shiftedDigits (v : U256) {n : Nat} (hn : n ≤ 256) :
    parsed binFormat (shiftedDigits v n) = shifter v n := by
  have hlen := shiftedDigits_length v hn
  refine BitVec.eq_of_getLsbD_eq fun i hi => ?_
  rw [Bool.eq_iff_iff, parsed_binFormat_getLsbD hlen.le, hlen, shiftedDigits_getD v hn (by omega),
    shifter_getLsbD v n hi]
  by_cases hni : n ≤ i
  · have hpos : 255 - (256 - 1 - i + n) = i - n := by omega
    have hlt : 256 - 1 - i + n < 256 := by omega
    rw [hpos]
    cases v.getLsbD (i - n) <;> simp [hi, hni, hlt]
  · have hge : ¬ 256 - 1 - i + n < 256 := by omega
    simp [hni, hge]

/-- SHL by an amount that fits `X` (R160). -/
theorem yields_shl_ofNat (v : U256) {n : Nat} (hn : n < 2 ^ 64) : Yields (.shl v (BitVec.ofNat 64 n)) (shifter v n) :=
  (yields_shl v _).trans_eq <| congrArg (shifter v) <| (BitVec.toNat_ofNat n 64).trans (Nat.mod_eq_of_lt hn)

/-- Settles O50: FROMBIN accepts the string and reads the shifted value. -/
theorem shiftAgreesWithBinaryStrings : Obligations.ShiftAgreesWithBinaryStrings := by
  intro v n hn
  exact ⟨shifter v n, yields_shl_ofNat v (by omega),
    (isParser_fromBin.yields (accepted_shiftedDigits v (by omega))).trans_eq (parsed_shiftedDigits v (by omega))⟩

end Sys2Proof.Machine
end

section
/-! SUPPORT. TOHEX and FROMHEX as inverses (R121 to R123, R194). A lower-case digit string without leading zero is
fixed by the number it denotes, which also gives its length; the formatted text and the canonical form of a string are
both such strings. -/

namespace Sys2Proof.Machine

/-! ### Hexadecimal characters -/

theorem hexval_ne_none_of_lowerHex : ∀ {ch : Byte}, LowerHex ch → hexval ch ≠ none := by
  unfold LowerHex
  decide

/-- A lower-case digit is the character of its value. -/
theorem hexchar_hexval : ∀ {ch : Byte}, LowerHex ch → hexchar ((hexval ch).getD 0) = ch := by
  unfold LowerHex
  decide

theorem hexval_injOn_lowerHex {ch ch' : Byte} (h : LowerHex ch) (h' : LowerHex ch')
    (heq : (hexval ch).getD 0 = (hexval ch').getD 0) : ch = ch' := by
  rw [← hexchar_hexval h, heq, hexchar_hexval h']

theorem hexval_pos {ch : Byte} (h : LowerHex ch) (hne : ch ≠ 0x30#8) : 0 < (hexval ch).getD 0 :=
  Nat.pos_of_ne_zero fun h0 => hne <| (hexchar_hexval h).symm.trans (congrArg hexchar h0)

/-- Lowering a character keeps its digit value (R122). -/
theorem hexval_lowered : ∀ ch : Byte, hexval (lowered ch) = hexval ch := by decide

theorem lowered_lowerHex : ∀ {ch : Byte}, hexval ch ≠ none → LowerHex (lowered ch) := by
  unfold LowerHex
  decide

/-! ### Leading zeros -/

theorem readFrom_cons (f : DigitFormat) (ch : Byte) (str : Str) :
    readFrom f 0 (ch :: str) = (f.dv ch).getD 0 * f.base ^ str.length + readFrom f 0 str := by
  have h : readFrom f 0 (ch :: str) = readFrom f (0 * f.base + (f.dv ch).getD 0) str := rfl
  rw [h, readFrom_eq, Nat.zero_mul, Nat.zero_add]

theorem dropZeros_cons (ch : Byte) (str : Str) :
    dropZeros (ch :: str) = if ch = 0x30#8 then dropZeros str else ch :: str := by
  simp only [dropZeros, List.dropWhile_cons, beq_iff_eq]

theorem dropZeros_subset (str : Str) : dropZeros str ⊆ str := List.dropWhile_subset _

theorem readFrom_dropZeros (str : Str) : readFrom hexFormat 0 (dropZeros str) = readFrom hexFormat 0 str := by
  induction str with
  | nil => rfl
  | cons ch str ih =>
    rw [dropZeros_cons]
    split
    · next hzero =>
      have hdv : hexFormat.dv 0x30#8 = some 0 := by decide
      rw [ih, hzero, readFrom_cons, hdv, Option.getD_some, Nat.zero_mul, Nat.zero_add]
    · rfl

/-! ### Plain strings -/

/-- Lower-case hexadecimal digits that do not start with `'0'`. -/
structure PlainHex (t : Str) : Prop where
  lower : ∀ ch ∈ t, LowerHex ch
  head : t.head? ≠ some 0x30#8

theorem plainHex_dropZeros {str : Str} (h : ∀ ch ∈ str, LowerHex ch) : PlainHex (dropZeros str) := by
  refine ⟨fun ch hch => h ch (dropZeros_subset str hch), ?_⟩
  induction str with
  | nil => exact Option.some_ne_none _ ∘ Eq.symm
  | cons ch str ih =>
    rw [dropZeros_cons]
    split
    · exact ih (List.forall_mem_of_forall_mem_cons h)
    · next hne => exact hne ∘ Option.some.inj

/-- A plain string without its last digit is plain. -/
theorem PlainHex.of_concat {t : Str} {ch : Byte} (h : PlainHex (t ++ [ch])) : PlainHex t := by
  obtain ⟨hlower, hhead⟩ := h
  refine ⟨fun c hc => hlower c (List.mem_append_left _ hc), ?_⟩
  cases t with
  | nil => exact Option.some_ne_none _ ∘ Eq.symm
  | cons c t => exact hhead

theorem PlainHex.lower_last {t : Str} {ch : Byte} (h : PlainHex (t ++ [ch])) : LowerHex ch :=
  h.lower ch (by simp)

/-- The leading digit of a plain string is at least one. -/
theorem PlainHex.pow_le_readFrom {t : Str} (h : PlainHex t) (hne : t ≠ []) :
    16 ^ (t.length - 1) ≤ readFrom hexFormat 0 t := by
  cases t with
  | nil => exact absurd rfl hne
  | cons ch t =>
    have hpos : 0 < (hexFormat.dv ch).getD 0 :=
      hexval_pos (h.lower ch List.mem_cons_self) fun hch => h.head (congrArg some hch)
    rw [readFrom_cons]
    exact (Nat.le_mul_of_pos_left _ hpos).trans (Nat.le_add_right _ _)

theorem PlainHex.readFrom_pos {t : Str} (h : PlainHex t) (hne : t ≠ []) : 0 < readFrom hexFormat 0 t :=
  (Nat.pow_pos (by decide)).trans_le (h.pow_le_readFrom hne)

/-- A plain string is fixed by the number it denotes: its last digit is the remainder by 16, and the quotient fixes the
rest. -/
theorem PlainHex.eq_of_readFrom_eq {t t' : Str} (h : PlainHex t) (h' : PlainHex t')
    (heq : readFrom hexFormat 0 t = readFrom hexFormat 0 t') : t = t' := by
  induction t using List.reverseRecOn generalizing t' with
  | nil =>
    by_contra hne
    exact absurd heq (h'.readFrom_pos (Ne.symm hne)).ne
  | append_singleton t ch ih =>
    rcases List.eq_nil_or_concat t' with rfl | ⟨u, ch', rfl⟩
    · exact absurd heq (h.readFrom_pos (by simp)).ne'
    · rw [List.concat_eq_append] at h' heq ⊢
      have hread : readFrom hexFormat 0 t * 16 + (hexval ch).getD 0 =
          readFrom hexFormat 0 u * 16 + (hexval ch').getD 0 := by
        rwa [readFrom_concat, readFrom_concat] at heq
      have hlt := hexval_lt ch
      have hlt' := hexval_lt ch'
      rw [ih h.of_concat h'.of_concat (by omega), hexval_injOn_lowerHex h.lower_last h'.lower_last (by omega)]

/-- The number of digits is read off the number's highest bit (R123). -/
theorem PlainHex.length_eq {t : Str} (h : PlainHex t) (hne : t ≠ []) :
    t.length = Nat.log2 (readFrom hexFormat 0 t) / 4 + 1 := by
  have hpos := (h.readFrom_pos hne).ne'
  have hlo : 2 ^ (4 * (t.length - 1)) ≤ readFrom hexFormat 0 t := by
    rw [pow_mul]
    exact h.pow_le_readFrom hne
  have hhi : readFrom hexFormat 0 t < 2 ^ (4 * t.length) := by
    rw [pow_mul]
    exact readFrom_lt hexFormat hexFormat_fits t
  have hle := (Nat.le_log2 hpos).mpr hlo
  have hlt := (Nat.log2_lt hpos).mpr hhi
  have hlen := List.length_pos_of_ne_nil hne
  omega

/-! ### Shortest numerals (R121) -/

theorem shortestHex_zero : ShortestHex 0 [0x30#8] :=
  ⟨fun _ h => List.mem_singleton.mp h ▸ hexchar_lowerHex 0 (by decide), by decide, fun _ => rfl, absurd rfl⟩

theorem PlainHex.shortestHex {t : Str} (h : PlainHex t) (hne : t ≠ []) : ShortestHex (readFrom hexFormat 0 t) t :=
  ⟨h.lower, (readFrom_eq_numeral hexFormat t).symm, fun h0 => absurd h0 (h.readFrom_pos hne).ne', fun _ => h.head⟩

theorem shortestHex_unique {n : Nat} {t t' : Str} (h : ShortestHex n t) (h' : ShortestHex n t') : t = t' := by
  obtain ⟨hlower, hread, hzero, hhead⟩ := h
  obtain ⟨hlower', hread', hzero', hhead'⟩ := h'
  by_cases hn : n = 0
  · rw [hzero hn, hzero' hn]
  · refine PlainHex.eq_of_readFrom_eq ⟨hlower, hhead hn⟩ ⟨hlower', hhead' hn⟩ ?_
    rw [readFrom_eq_numeral, readFrom_eq_numeral]
    exact hread.trans hread'.symm

/-! ### The formatted text -/

/-- The first k of a limb's sixteen digits are its quotient by the weight of the next one. -/
theorem readFrom_digits (n k : Nat) (hk : k ≤ 16) :
    readFrom hexFormat 0 ((List.range k).map fun p => hexchar (n / 16 ^ (15 - p) % 16)) =
      n / 16 ^ (16 - k) % 16 ^ k := by
  induction k with
  | zero => simp [readFrom, Nat.mod_one]
  | succ k ih =>
    have hdigit : (hexFormat.dv (hexchar (n / 16 ^ (15 - k) % 16))).getD 0 = n / 16 ^ (15 - k) % 16 := by
      rw [show hexFormat.dv = hexval from rfl, hexval_hexchar _ (Nat.mod_lt _ (by decide)), Option.getD_some]
    have hweight : n / 16 ^ (16 - k) = n / 16 ^ (15 - k) / 16 := by
      rw [Nat.div_div_eq_div_mul, ← pow_succ, show 16 - k = 15 - k + 1 by omega]
    rw [List.range_succ, List.map_append, List.map_singleton, readFrom_concat, hdigit, ih (by omega), hweight,
      show 16 - (k + 1) = 15 - k by omega, pow_succ', Nat.mod_mul]
    exact (Nat.add_comm _ _).trans (congrArg _ (Nat.mul_comm _ _))

theorem readFrom_sixteenDigits {n : Nat} (hn : n < 2 ^ 64) : readFrom hexFormat 0 (sixteenDigits n) = n := by
  rw [sixteenDigits, readFrom_digits n 16 le_rfl, Nat.sub_self, pow_zero, Nat.div_one]
  exact Nat.mod_eq_of_lt hn

theorem readFrom_pad16 (v : U256) (i : Nat) : readFrom hexFormat 0 (pad16 (limb v i)) = limbVal v i := by
  rw [pad16_limb, readFrom_sixteenDigits (limbVal_lt v i)]

theorem readFrom_nopad (v : U256) (i : Nat) : readFrom hexFormat 0 (nopad (limb v i)) = limbVal v i := by
  rw [nopad_limb, readFrom_dropZeros, readFrom_sixteenDigits (limbVal_lt v i)]

/-- The value of the limbs up to limb m (R20). -/
theorem mod_two_pow_limb (v : U256) (m : Nat) :
    v.toNat % 2 ^ (64 * (m + 1)) = limbVal v m * 2 ^ (64 * m) + v.toNat % 2 ^ (64 * m) := by
  rw [Nat.mul_succ, pow_add, Nat.mod_mul, limbVal, Nat.add_comm, Nat.mul_comm]

theorem pow_hex_eq (m : Nat) : hexFormat.base ^ (16 * m) = 2 ^ (64 * m) := by
  rw [pow_mul, pow_mul]
  rfl

theorem readFrom_paddedBelow (v : U256) (m : Nat) :
    readFrom hexFormat 0 (paddedBelow v m) = v.toNat % 2 ^ (64 * m) := by
  induction m with
  | zero => simp [paddedBelow, readFrom, Nat.mod_one]
  | succ m ih =>
    rw [paddedBelow, readFrom_append, readFrom_pad16, paddedBelow_length, pow_hex_eq, ih, mod_two_pow_limb]

theorem readFrom_textFrom_of_ne_zero {v : U256} {m : Nat} (hm : limbVal v m ≠ 0) :
    readFrom hexFormat 0 (textFrom v m) = v.toNat % 2 ^ (64 * (m + 1)) := by
  rw [textFrom_of_ne_zero hm, readFrom_append, readFrom_nopad, paddedBelow_length, pow_hex_eq, readFrom_paddedBelow,
    ← mod_two_pow_limb]

/-- The text from limb i down denotes the value of these limbs. -/
theorem readFrom_textFrom (v : U256) (i : Nat) :
    readFrom hexFormat 0 (textFrom v i) = v.toNat % 2 ^ (64 * (i + 1)) := by
  induction i with
  | zero =>
    by_cases h : limbVal v 0 = 0
    · have hread : readFrom hexFormat 0 [0x30#8] = 0 := by decide
      rw [textFrom, if_pos ((limb_eq_zero_iff v 0).mpr h), hread, mod_two_pow_limb, h, Nat.zero_mul, Nat.zero_add,
        Nat.mul_zero, pow_zero, Nat.mod_one]
    · exact readFrom_textFrom_of_ne_zero h
  | succ i ih =>
    by_cases h : limbVal v (i + 1) = 0
    · rw [textFrom, if_pos ((limb_eq_zero_iff v (i + 1)).mpr h), ih, mod_two_pow_limb v (i + 1), h, Nat.zero_mul,
        Nat.zero_add]
    · exact readFrom_textFrom_of_ne_zero h

theorem readFrom_hexText (v : U256) : readFrom hexFormat 0 (hexText v) = v.toNat :=
  (readFrom_textFrom v 3).trans (Nat.mod_eq_of_lt v.isLt)

/-- The text from a limb that is not zero starts with that limb's first digit. -/
theorem textFrom_head_of_ne_zero {v : U256} {m : Nat} (hm : limbVal v m ≠ 0) :
    (textFrom v m).head? ≠ some 0x30#8 := by
  have hplain : PlainHex (nopad (limb v m)) := plainHex_dropZeros (pad16_lowerHex (limb v m))
  have hread := readFrom_nopad v m
  rw [textFrom_of_ne_zero hm]
  cases hdigits : nopad (limb v m) with
  | nil => exact absurd (hread.symm.trans (congrArg (readFrom hexFormat 0) hdigits)) hm
  | cons ch rest =>
    rw [hdigits] at hplain
    exact hplain.head

theorem textFrom_head {v : U256} {i : Nat} (h : v.toNat % 2 ^ (64 * (i + 1)) ≠ 0) :
    (textFrom v i).head? ≠ some 0x30#8 := by
  induction i with
  | zero =>
    refine textFrom_head_of_ne_zero fun h0 => h ?_
    rw [mod_two_pow_limb, h0, Nat.zero_mul, Nat.zero_add, Nat.mul_zero, pow_zero, Nat.mod_one]
  | succ i ih =>
    by_cases h0 : limbVal v (i + 1) = 0
    · rw [textFrom, if_pos ((limb_eq_zero_iff v (i + 1)).mpr h0)]
      refine ih fun hlow => h ?_
      rw [mod_two_pow_limb, h0, hlow, Nat.zero_mul]
    · exact textFrom_head_of_ne_zero h0

theorem toNat_ne_zero {v : U256} (hv : v ≠ 0) : v.toNat ≠ 0 := fun h => hv (BitVec.eq_of_toNat_eq h)

theorem plainHex_hexText {v : U256} (hv : v ≠ 0) : PlainHex (hexText v) := by
  refine ⟨hexText_lowerHex v, textFrom_head (i := 3) ?_⟩
  rw [Nat.mod_eq_of_lt v.isLt]
  exact toNat_ne_zero hv

theorem hexText_ne_nil (v : U256) : hexText v ≠ [] := by
  by_cases hv : v = 0
  · rw [hv, hexText_zero]
    exact List.cons_ne_nil _ _
  · intro hnil
    exact toNat_ne_zero hv ((readFrom_hexText v).symm.trans (congrArg (readFrom hexFormat 0) hnil))

theorem shortestHex_hexText (v : U256) : ShortestHex v.toNat (hexText v) := by
  by_cases hv : v = 0
  · rw [hv, hexText_zero]
    exact shortestHex_zero
  · have h := (plainHex_hexText hv).shortestHex (hexText_ne_nil v)
    rwa [readFrom_hexText] at h

/-- Settles O28: the formatted text is a shortest numeral, and there is only one. -/
theorem toHexIsShortestNumeral : Obligations.ToHexIsShortestNumeral := fun v =>
  ⟨hexText v, yieldsT_toHex v, shortestHex_hexText v, fun _ h => shortestHex_unique h (shortestHex_hexText v)⟩

/-! ### The length of the text (R123) -/

/-- Nothing of a value lies above its highest non-zero limb. -/
theorem toNat_eq_of_topLimb {v : U256} {m : Nat} (h : TopLimb v m) :
    v.toNat = limbVal v m * 2 ^ (64 * m) + v.toNat % 2 ^ (64 * m) := by
  obtain ⟨hm, -, hzero⟩ := h
  have htext : hexText v = textFrom v m :=
    textFrom_eq_of_zeros_above (by omega) fun j hj hj3 => hzero j hj (by omega)
  rw [← mod_two_pow_limb, ← readFrom_textFrom, ← htext, readFrom_hexText]

theorem ne_zero_of_topLimb {v : U256} {m : Nat} (h : TopLimb v m) : v ≠ 0 := by
  rintro rfl
  exact h.2.1 (by simp [limbVal])

/-- The highest bit of a value is the highest bit of its highest non-zero limb. -/
theorem log2_of_topLimb {v : U256} {m : Nat} (h : TopLimb v m) :
    Nat.log2 v.toNat = 64 * m + Nat.log2 (limbVal v m) := by
  have hvalue := toNat_eq_of_topLimb h
  have hrem : v.toNat % 2 ^ (64 * m) < 2 ^ (64 * m) := Nat.mod_lt _ (Nat.two_pow_pos _)
  have hlo : 2 ^ Nat.log2 (limbVal v m) ≤ limbVal v m := Nat.log2_self_le h.2.1
  have hhi : limbVal v m + 1 ≤ 2 ^ (Nat.log2 (limbVal v m) + 1) := Nat.lt_log2_self
  refine (Nat.log2_eq_iff (toNat_ne_zero (ne_zero_of_topLimb h))).mpr ⟨?lower, ?upper⟩
  case lower =>
    calc 2 ^ (64 * m + Nat.log2 (limbVal v m))
        = 2 ^ Nat.log2 (limbVal v m) * 2 ^ (64 * m) := by rw [pow_add, Nat.mul_comm]
      _ ≤ limbVal v m * 2 ^ (64 * m) := Nat.mul_le_mul_right _ hlo
      _ ≤ v.toNat := by omega
  case upper =>
    calc v.toNat
        < (limbVal v m + 1) * 2 ^ (64 * m) := by rw [Nat.succ_mul]; omega
      _ ≤ 2 ^ (Nat.log2 (limbVal v m) + 1) * 2 ^ (64 * m) := Nat.mul_le_mul_right _ hhi
      _ = 2 ^ (64 * m + Nat.log2 (limbVal v m) + 1) := by rw [← pow_add, Nat.add_comm, Nat.add_assoc]

theorem hexText_length {v : U256} (hv : v ≠ 0) : (hexText v).length = Nat.log2 v.toNat / 4 + 1 := by
  have h := (plainHex_hexText hv).length_eq (hexText_ne_nil v)
  rwa [readFrom_hexText] at h

/-- Settles O29: the text of a value that is not zero is plain, and a limb has sixteen digits. -/
theorem toHexLength : Obligations.ToHexLength := by
  refine fun v => ⟨hexText v, yieldsT_toHex v, List.length_pos_of_ne_nil (hexText_ne_nil v), hexText_length_le v,
    fun hv => ?zero, hexText_length, fun m hm => ?top⟩
  case zero => rw [hv, hexText_zero, List.length_singleton]
  case top =>
    rw [hexText_length (ne_zero_of_topLimb hm), log2_of_topLimb hm]
    omega

/-! ### The round trip (R122) -/

theorem accepted_hexText (v : U256) : Accepted hexval 64 (hexText v) := by
  refine ⟨hexText_length_le v, fun k hk => ?_⟩
  rw [List.getD_eq_getElem _ _ hk]
  exact hexval_ne_none_of_lowerHex (hexText_lowerHex v _ (List.getElem_mem hk))

theorem parsed_hexText (v : U256) : parsed hexFormat (hexText v) = v :=
  BitVec.eq_of_toNat_eq <|
    (parsed_toNat hexFormat hexFormat_fits _ (hexText_length_le v)).trans (readFrom_hexText v)

theorem readFrom_map_lowered (str : Str) :
    readFrom hexFormat 0 (str.map lowered) = readFrom hexFormat 0 str := by
  have hdv : ∀ ch, hexFormat.dv (lowered ch) = hexFormat.dv ch := hexval_lowered
  simp only [readFrom, List.foldl_map, hdv]

/-- The canonical form of a string of digits is the shortest numeral of the number it denotes. -/
theorem shortestHex_canon {str : Str} (h : ∀ ch ∈ str, hexval ch ≠ none) :
    ShortestHex (readFrom hexFormat 0 str) (canon str) := by
  have hplain : PlainHex (dropZeros (str.map lowered)) := by
    refine plainHex_dropZeros fun ch hch => ?_
    obtain ⟨c, hc, rfl⟩ := List.mem_map.mp hch
    exact lowered_lowerHex (h c hc)
  have hread := (readFrom_dropZeros (str.map lowered)).trans (readFrom_map_lowered str)
  rw [← hread, canon]
  generalize dropZeros (str.map lowered) = t at hplain
  cases t with
  | nil => exact shortestHex_zero
  | cons ch rest => exact hplain.shortestHex (List.cons_ne_nil ch rest)

/-- Formatting a parsed string gives its canonical form: both are the shortest numeral of its value. -/
theorem hexText_parsed {str : Str} (ha : Accepted hexval 64 str) : hexText (parsed hexFormat str) = canon str := by
  obtain ⟨hlen, hdigits⟩ := ha
  have hall : ∀ ch ∈ str, hexval ch ≠ none := by
    intro ch hch
    obtain ⟨k, hk, rfl⟩ := List.getElem_of_mem hch
    rw [← List.getD_eq_getElem _ 0 hk]
    exact hdigits k hk
  have htext := shortestHex_hexText (parsed hexFormat str)
  rw [parsed_toNat hexFormat hexFormat_fits str hlen] at htext
  exact shortestHex_unique htext (shortestHex_canon hall)

/-- Settles O30: `parsed_hexText` is the one way round, and `hexText_parsed` the other. -/
theorem hexRoundTrip : Obligations.HexRoundTrip := by
  refine ⟨fun v => ⟨hexText v, yieldsT_toHex v, ?_⟩, fun str ha =>
    ⟨parsed hexFormat str, isParser_fromHex.yields ha, ?_⟩⟩
  · exact (isParser_fromHex.yields (accepted_hexText v)).trans_eq (parsed_hexText v)
  · rw [← hexText_parsed ha]
    exact yieldsT_toHex _

/-! ### Equality of values (R194) -/

/-- A command has one response: `YieldsT` determines the string. -/
theorem yieldsT_unique {i : Instr} {t t' : Str} (h : YieldsT i t) (h' : YieldsT i t') : t = t' := by
  obtain ⟨u, hu, ⟨-, -, -, htext, -⟩, -⟩ := h State.reset
  obtain ⟨u', hu', ⟨-, -, -, htext', -⟩, -⟩ := h' State.reset
  obtain rfl : u = u' := Host.Outcome.next.inj (hu.symm.trans hu')
  exact htext.symm.trans htext'

theorem hexText_injective {v w : U256} (h : hexText v = hexText w) : v = w := by
  rw [← parsed_hexText v, h, parsed_hexText]

theorem eq_of_limbVal_eq {v w : U256} (h : ∀ i, i < 4 → limbVal v i = limbVal w i) : v = w := by
  apply BitVec.eq_of_toNat_eq
  rw [toNat_eq_limbs v, toNat_eq_limbs w, h 0 (by decide), h 1 (by decide), h 2 (by decide), h 3 (by decide)]

/-- Settles O31: the text fixes the value, and the limbs do. -/
theorem toHexIsInjective : Obligations.ToHexIsInjective := by
  refine fun v w => ⟨?_, fun h => ?_⟩
  · rintro ⟨t, hv, hw⟩ i -
    rw [hexText_injective ((yieldsT_unique (yieldsT_toHex v) hv).trans (yieldsT_unique hw (yieldsT_toHex w)))]
  · exact ⟨hexText v, yieldsT_toHex v, eq_of_limbVal_eq h ▸ yieldsT_toHex v⟩

end Sys2Proof.Machine
end

section
/-! SUPPORT. What the carry and borrow chains discard (R142, R143, R152): a chain from 0 is the unit's own, and its last
link is the quotient of the true result by 2^256. Negation (R153). -/

namespace Sys2Proof.Machine

/-! ### Carry (R142, R143) -/

/-- The recurrence of R140 from carry 0 has one solution, the unit's own chain. -/
theorem eq_carryInto_of_chain {a b : U256} {carry : Nat → Nat} (h0 : carry 0 = 0)
    (hstep : ∀ i, i < 4 → carry (i + 1) = (limbVal a i + limbVal b i + carry i) / 2 ^ 64) {i : Nat} (hi : i ≤ 4) :
    carry i = (carryInto a b i).toNat := by
  induction i with
  | zero => exact h0
  | succ i ih => rw [hstep i hi, ih (by omega), carryInto_succ_toNat]

/-- The last carry is what the sum of words lacks of the true sum (R142). -/
theorem toNat_add_lastCarry (a b : U256) :
    (a + b).toNat + 2 ^ 256 * (carryInto a b 4).toNat = a.toNat + b.toNat := by
  have h := adder_spec a b State.reset.work
  rwa [adder_eq] at h

/-- Settles O38: every chain from 0 is the unit's own, whose last carry `toNat_add_lastCarry` speaks of. -/
theorem lastCarryIsQuotient : Obligations.LastCarryIsQuotient := by
  refine fun a b => ⟨a + b, yields_add a b, fun carry h0 hstep => ?_⟩
  have hsum := toNat_add_lastCarry a b
  have hlt := (a + b).isLt
  rw [eq_carryInto_of_chain h0 hstep le_rfl]
  omega

/-- The step's sum word is the three-way sum of words (R143). -/
theorem addStep_sum_eq (x y : Limb) (cin : BitVec 1) : (addStep x y cin).1 = x + y + cin.setWidth 64 := by
  apply BitVec.eq_of_toNat_eq
  have hcin : (cin.setWidth 64).toNat = cin.toNat := BitVec.toNat_setWidth_of_le (by decide)
  rw [addStep_sum_toNat, BitVec.toNat_add, BitVec.toNat_add, hcin, Nat.mod_add_mod]

/-- Of the two successive sums at most one wraps, and the carry-out says whether one does (R143). -/
theorem addStep_carry_eq_one_iff_wraps (x y : Limb) (cin : BitVec 1) :
    ((addStep x y cin).2 = 1 ↔ x + y < x ∨ x + y + cin.setWidth 64 < x + y) ∧
      ¬ (x + y < x ∧ x + y + cin.setWidth 64 < x + y) := by
  have hcin : (cin.setWidth 64).toNat = cin.toNat := BitVec.toNat_setWidth_of_le (by decide)
  have hx := x.isLt
  have hy := y.isLt
  have hc := cin.isLt
  simp only [addStep_carry_eq_one_iff, BitVec.lt_def, BitVec.toNat_add, hcin]
  omega

/-- Settles O36: the wraps are those of `addStep_carry_eq_one_iff_wraps`, and the table's rows are evaluated. -/
theorem carryOutCountsCarryIn : Obligations.CarryOutCountsCarryIn :=
  ⟨fun x y cin => ⟨addStep_sum_eq x y cin, addStep_carry_eq_one_iff_wraps x y cin⟩, by decide, by decide⟩

/-! ### Borrow (R152) -/

/-- The recurrence of R150 from borrow 0 has one solution, the unit's own chain. -/
theorem eq_borrowInto_of_chain {a b : U256} {bw : Nat → Int} (h0 : bw 0 = 0)
    (hstep : ∀ i, i < 4 → bw (i + 1) = if (limbVal a i : Int) - limbVal b i - bw i < 0 then 1 else 0) {i : Nat}
    (hi : i ≤ 4) : bw i = (borrowInto a b i).toNat := by
  induction i with
  | zero => exact h0
  | succ i ih => rw [hstep i hi, ih (by omega), borrowInto_succ_toNat]

/-- Settles O42: every chain from 0 is the unit's own, whose last borrow `toNat_sub_lastBorrow` speaks of. -/
theorem lastBorrowIsQuotient : Obligations.LastBorrowIsQuotient := by
  refine fun a b => ⟨a - b, yields_sub a b, fun bw h0 hstep => ?_⟩
  have hdiff := toNat_sub_lastBorrow a b
  have hlt := (a - b).isLt
  rw [eq_borrowInto_of_chain h0 hstep le_rfl]
  omega

/-! ### Negation (R153) -/

theorem yields_pseudoNeg (b : U256) : Yields (pseudoNeg b) (-b) := by
  rw [pseudoNeg, ofLimbs_zero]
  exact (yields_sub 0 b).trans_eq (zero_sub b)

theorem yields_add_iff (a b v : U256) : Yields (.add a b) v ↔ a + b = v :=
  ⟨yields_unique (yields_add a b), (yields_add a b).trans_eq⟩

/-- Settles O44: `NEG b` yields the negation of the word b. -/
theorem negationMakesSubtraction : Obligations.NegationMakesSubtraction := by
  refine ⟨yields_fromU64_zero, fun b => ⟨-b, yields_pseudoNeg b, BitVec.toNat_neg b, BitVec.neg_eq_not_add b,
    fun m => ?unique, fun hb => ?zero, fun a => ⟨a - b, yields_sub a b, ?sub⟩⟩⟩
  case unique => exact (yields_add_iff m b 0).trans eq_neg_iff_add_eq_zero.symm
  case zero => rw [hb, neg_zero]
  case sub => exact (yields_add a (-b)).trans_eq (sub_eq_add_neg a b).symm

end Sys2Proof.Machine
end

section
/-! SUPPORT. The limbs of a shift (R161, R162, R164): limb i joins two parts that share no bit, and a limb stage and a
bit stage make the whole shift. The shift of a sum (R189). -/

namespace Sys2Proof.Machine

/-! ### Limbs of a shift (R161) -/

/-- `src(i - w)` of R161, as the unit selects it. -/
theorem srcLimb_toNat (v : U256) {i : Nat} (hi : i < 4) (w : Nat) :
    (srcLimb v i w).toNat = srcVal v ((i : Int) - w) := by
  rw [srcLimb, srcVal]
  by_cases hw : w ≤ i
  · have hidx : ((i : Int) - w).toNat = i - w := by omega
    rw [if_pos hw, if_pos (by omega), hidx, limb_toNat]
  · rw [if_neg hw, if_neg (by omega)]
    rfl

theorem srcVal_lt (v : U256) (j : Int) : srcVal v j < 2 ^ 64 := by
  rw [srcVal]
  split
  · exact limbVal_lt v _
  · exact Nat.two_pow_pos 64

theorem srcVal_of_lt (v : U256) {i : Nat} (hi : i < 4) : srcVal v i = limbVal v i := by
  rw [srcVal, if_pos (by omega), Int.toNat_natCast]

/-- The part of limb i that comes from the limb `w` places below, shifted up by b (R161). -/
def upperPart (v : U256) (i w b : Nat) : Nat := srcVal v ((i : Int) - w) * 2 ^ b % 2 ^ 64

/-- The part of limb i that comes from the top b bits of the next lower limb (R161). -/
def lowerPart (v : U256) (i w b : Nat) : Nat := srcVal v ((i : Int) - w - 1) / 2 ^ (64 - b)

theorem lowerPart_zero (v : U256) (i w : Nat) : lowerPart v i w 0 = 0 := Nat.div_eq_of_lt (srcVal_lt v _)

theorem lowerPart_lt (v : U256) (i w : Nat) {b : Nat} (hb : b < 64) : lowerPart v i w b < 2 ^ b := by
  refine Nat.div_lt_of_lt_mul ?_
  rw [← pow_add, Nat.sub_add_cancel hb.le]
  exact srcVal_lt v _

/-- The upper part is a multiple of `2^b`. -/
theorem upperPart_eq (v : U256) (i w : Nat) {b : Nat} (hb : b < 64) :
    upperPart v i w b = 2 ^ b * (srcVal v ((i : Int) - w) % 2 ^ (64 - b)) := by
  have hsplit : 2 ^ 64 = 2 ^ (64 - b) * 2 ^ b := by rw [← pow_add, Nat.sub_add_cancel hb.le]
  rw [upperPart, hsplit, Nat.mul_mod_mul_right, Nat.mul_comm]

/-- The two parts share no bit, so joining them adds them. -/
theorem upperPart_or_lowerPart (v : U256) (i w : Nat) {b : Nat} (hb : b < 64) :
    upperPart v i w b ||| lowerPart v i w b = upperPart v i w b + lowerPart v i w b := by
  rw [upperPart_eq v i w hb, Nat.two_pow_add_eq_or_of_lt (lowerPart_lt v i w hb)]

theorem upperPart_and_lowerPart (v : U256) (i w : Nat) {b : Nat} (hb : b < 64) :
    upperPart v i w b &&& lowerPart v i w b = 0 := by
  refine Nat.eq_of_testBit_eq fun p => ?_
  rw [Nat.testBit_and, upperPart_eq v i w hb, Nat.testBit_two_pow_mul, Nat.zero_testBit]
  by_cases hp : b ≤ p
  · have hlow : lowerPart v i w b < 2 ^ p :=
      (lowerPart_lt v i w hb).trans_le (Nat.pow_le_pow_right (by decide) hp)
    rw [Nat.testBit_lt_two_pow hlow, Bool.and_false]
  · simp [hp]

/-- Limb i of the shifted value joins the two parts (R161). -/
theorem limbVal_shifter (v : U256) (n : Nat) {i : Nat} (hi : i < 4) :
    limbVal (shifter v n) i = upperPart v i (n / 64) (n % 64) ||| lowerPart v i (n / 64) (n % 64) := by
  have hnext : (i : Int) - (n / 64 : Nat) - 1 = (i : Int) - (n / 64 + 1 : Nat) := by omega
  have hlower : (if n % 64 = 0 then 0 else srcLimb v i (n / 64 + 1) >>> (64 - n % 64)).toNat =
      lowerPart v i (n / 64) (n % 64) := by
    split
    · next h0 => rw [h0, lowerPart_zero]; rfl
    · rw [BitVec.toNat_ushiftRight, Nat.shiftRight_eq_div_pow, srcLimb_toNat v hi, lowerPart, hnext]
  rw [shifter, limbVal_ofLimbs_apply (shlLimb v n) hi, shlLimb, BitVec.toNat_or, hlower, BitVec.toNat_shiftLeft,
    Nat.shiftLeft_eq, srcLimb_toNat v hi, upperPart]

/-- Settles O46: the parts are `upperPart` and `lowerPart`. -/
theorem shlFollowsLimbAlgorithm : Obligations.ShlFollowsLimbAlgorithm := by
  refine fun a x => ⟨shifter a x.toNat, yields_shl a x, fun i hi => ⟨upperPart a i (x.toNat / 64) (x.toNat % 64),
    lowerPart a i (x.toNat / 64) (x.toNat % 64), rfl, ?lower, limbVal_shifter a x.toNat hi,
    upperPart_and_lowerPart a i _ (Nat.mod_lt _ (by decide))⟩⟩
  case lower =>
    split
    · next h0 => rw [h0, lowerPart_zero]
    · rfl

/-! ### Composing shifts (R162, R164) -/

theorem shifter_shifter (v : U256) (m n : Nat) : shifter (shifter v m) n = shifter v (m + n) := by
  rw [shifter_eq, shifter_eq, shifter_eq, BitVec.shiftLeft_add]

/-- The limb stage moves whole limbs (R164). -/
theorem limbVal_limbStage (v : U256) (w : Nat) {i : Nat} (hi : i < 4) :
    limbVal (shifter v (64 * w)) i = srcVal v ((i : Int) - w) := by
  rw [limbVal_shifter v _ hi, Nat.mul_div_cancel_left w (by decide), Nat.mul_mod_right, lowerPart_zero, Nat.or_zero,
    upperPart, pow_zero, Nat.mul_one, Nat.mod_eq_of_lt (srcVal_lt v _)]

/-- The bit stage joins each limb with the top bits of the one below (R164). -/
theorem limbVal_bitStage (v : U256) {b i : Nat} (hb : b < 64) (hi : i < 4) :
    limbVal (shifter v b) i = limbVal v i * 2 ^ b % 2 ^ 64 + srcVal v ((i : Int) - 1) / 2 ^ (64 - b) := by
  rw [limbVal_shifter v b hi, Nat.div_eq_of_lt hb, Nat.mod_eq_of_lt hb, upperPart_or_lowerPart v i 0 hb, upperPart,
    lowerPart, Nat.cast_zero, sub_zero, srcVal_of_lt v hi]

/-- Settles O47: the shifter is the shift of the word, and its limbs are those of the two stages. -/
theorem shiftsMultiplyAndCompose : Obligations.ShiftsMultiplyAndCompose := by
  refine ⟨yields_shl, shifter_toNat, shifter_shifter, fun v n => ⟨?limbFirst, ?bitFirst⟩,
    fun v w i hi => limbVal_limbStage v w hi, fun v b i hb hi => limbVal_bitStage v hb hi⟩
  case limbFirst => rw [shifter_shifter, Nat.div_add_mod]
  case bitFirst => rw [shifter_shifter, Nat.mod_add_div]

/-- Settles O49: a shift of words distributes over their sum. -/
theorem shiftDistributesOverAddition : Obligations.ShiftDistributesOverAddition := by
  refine fun a b n => ⟨a + b, shifter a n.toNat, shifter b n.toNat, shifter (a + b) n.toNat, yields_add a b,
    yields_shl a n, yields_shl b n, yields_shl (a + b) n, (yields_add _ _).trans_eq ?sum, ?value⟩
  case sum => rw [shifter_eq, shifter_eq, shifter_eq, BitVec.shiftLeft_add_distrib]
  case value => rw [shifter_toNat, BitVec.toNat_add, Nat.mod_mul_mod]

end Sys2Proof.Machine
end

section
/-! SUPPORT. The multiplier (R171, R172): accumulators that follow its steps are its own, so its loop invariant is
theirs. The laws of multiplication (R193). -/

namespace Sys2Proof.Machine

/-- A step of R170, taken by the unit's own commands, leads from one of the multiplier's accumulators to the next. -/
theorem eq_mulAcc_succ {a b w acc' : U256} {i : Nat} (hi : i < 256) (hshift : Yields (.shl a (BitVec.ofNat 64 i)) w)
    (hnext : if b.getLsbD i then Yields (.add (mulAcc a b i) w) acc' else acc' = mulAcc a b i) :
    acc' = mulAcc a b (i + 1) := by
  have hw : w = shifter a i := yields_unique hshift (yields_shl_ofNat a (by omega))
  split at hnext
  · next hbit =>
    rw [mulAcc_succ_of_bitOf_eq_one hi ((bitOf_eq_one_iff b i).mpr hbit), ← hw]
    exact yields_unique hnext (yields_add _ _)
  · next hbit => rw [mulAcc_succ_of_bitOf_ne_one hi (mt (bitOf_eq_one_iff b i).mp hbit), hnext]

theorem eq_mulAcc_of_steps {a b : U256} {acc : Nat → U256} (h0 : acc 0 = 0)
    (hstep : ∀ i, i < 256 → ∃ w, Yields (.shl a (BitVec.ofNat 64 i)) w ∧
      if b.getLsbD i then Yields (.add (acc i) w) (acc (i + 1)) else acc (i + 1) = acc i) {i : Nat} (hi : i ≤ 256) :
    acc i = mulAcc a b i := by
  induction i with
  | zero => exact h0
  | succ i ih =>
    obtain ⟨w, hshift, hnext⟩ := hstep i hi
    rw [ih (by omega)] at hnext
    exact eq_mulAcc_succ hi hshift hnext

/-- Settles O52: the accumulators are the unit's own, for which `mulLoop_acc` is the invariant. -/
theorem mulLoopInvariant : Obligations.MulLoopInvariant := by
  refine fun a b acc h0 hstep => ⟨fun i hi => ?_, ?_⟩
  · rw [eq_mulAcc_of_steps h0 hstep hi]
    exact mulLoop_acc a b State.reset.work i hi
  · rw [eq_mulAcc_of_steps h0 hstep le_rfl, mulAcc_last]
    exact yields_mul a b

/-- Settles O53: MUL yields the product of words. -/
theorem mulIsProductModulo : Obligations.MulIsProductModulo := fun a b =>
  ⟨a * b, yields_mul a b, BitVec.toNat_mul a b⟩

/-- Settles O56: the laws are those of words. -/
theorem multiplicationLaws : Obligations.MultiplicationLaws := by
  refine ⟨fun a b => ?comm, fun a b c => ?assoc, fun a b c => ?distrib⟩
  case comm => exact ⟨a * b, yields_mul a b, (yields_mul b a).trans_eq (BitVec.mul_comm b a)⟩
  case assoc =>
    exact ⟨a * b, b * c, a * b * c, yields_mul a b, yields_mul b c, yields_mul (a * b) c,
      (yields_mul a (b * c)).trans_eq (BitVec.mul_assoc a b c).symm⟩
  case distrib =>
    exact ⟨a * b, a * c, b + c, b - c, a * (b + c), a * (b - c), yields_mul a b, yields_mul a c, yields_add b c,
      yields_mul a (b + c), (yields_add (a * b) (a * c)).trans_eq BitVec.mul_add.symm, yields_sub b c,
      yields_mul a (b - c), (yields_sub (a * b) (a * c)).trans_eq BitVec.mul_sub.symm⟩

end Sys2Proof.Machine
end

section
/-! SUPPORT. BITSET (R131), and the register that carries a result (R78): each row's format names the one register its
responses may use. -/

namespace Sys2Proof.Machine

/-! ### BITSET (R131) -/

/-- Settles O33: the range test splits BITSET into the bit it reads and IndexError. -/
theorem bitSetTestsOneBit : Obligations.BitSetTestsOneBit := by
  refine fun c => ⟨decode_BITSET _ rfl, fun hx => ?_, raises_bitSet c.a⟩
  rw [← bitOf_eq]
  exact yieldsQ_bitSet c.a hx

/-! ### Result registers (R78) -/

/-- The response keeps to its row's format (R78): zero data on failure, and on success only the register named. -/
def UsesFormatRegister (row : OpRow) (ρ : Response) : Prop :=
  (ρ.err ≠ 0 → RespIs ρ ρ.err 0 0 []) ∧
    (ρ.err = 0 →
      match row.format with
      | .aT => RespIs ρ 0 0 0 ρ.text ∧ 1 ≤ ρ.text.length ∧ ρ.text.length ≤ 64
      | .axQ => RespIs ρ 0 0 ρ.q [] ∧ (row.mnemonic = .BITSET → ρ.q = 0 ∨ ρ.q = 1)
      | .xR | .aR | .sR | .axR | .abR => RespIs ρ 0 ρ.r 0 [])

theorem usesFormatRegister_ofError (row : OpRow) (e : Cause) : UsesFormatRegister row (.ofError e) := by
  have hcode : e.code ≠ 0 := by cases e <;> decide
  exact ⟨fun _ => respIs_ofError e, fun h => absurd h hcode⟩

theorem usesFormatRegister_ofR {row : OpRow} (v : U256) (ht : row.format ≠ .aT) (hq : row.format ≠ .axQ) :
    UsesFormatRegister row (.ofR v) := by
  obtain ⟨mask, pattern, m, f⟩ := row
  refine ⟨absurd rfl, fun _ => ?_⟩
  cases f with
  | aT => exact absurd rfl ht
  | axQ => exact absurd rfl hq
  | _ => exact respIs_ofR v

theorem usesFormatRegister_ofQ {row : OpRow} {q : BitVec 64} (hf : row.format = .axQ)
    (hbit : row.mnemonic = .BITSET → q = 0 ∨ q = 1) : UsesFormatRegister row (.ofQ q) := by
  obtain ⟨mask, pattern, m, f⟩ := row
  obtain rfl : f = .axQ := hf
  exact ⟨absurd rfl, fun _ => ⟨respIs_ofQ q, hbit⟩⟩

theorem usesFormatRegister_ofT {row : OpRow} {t : Str} (hf : row.format = .aT) (hpos : 1 ≤ t.length)
    (hle : t.length ≤ 64) : UsesFormatRegister row (.ofT t) := by
  obtain ⟨mask, pattern, m, f⟩ := row
  obtain rfl : f = .aT := hf
  obtain ⟨-, -, -, htext, -⟩ := respIs_ofT t hle
  refine ⟨absurd rfl, fun _ => ?_⟩
  dsimp only
  rw [htext]
  exact ⟨respIs_ofT t hle, hpos, hle⟩

theorem bitOf_eq_zero_or_one (v : U256) (i : Nat) : bitOf v i = 0 ∨ bitOf v i = 1 := by
  rw [bitOf_eq]
  split
  · exact .inr rfl
  · exact .inl rfl

/-- A command assembled from a row answers in the register of the row's format. -/
theorem usesFormatRegister_assemble (c : Command) :
    ∀ row ∈ opcodeTable, UsesFormatRegister row (responseOf (assemble row.mnemonic c)) := by
  simp only [opcodeTable, List.forall_mem_cons]
  refine ⟨?fromU64, ?fromLimbs, ?fromHex, ?fromBin, ?toHex, ?limb, ?bitSet, ?add, ?sub, ?shl, ?mul,
    List.forall_mem_nil _⟩
  case fromU64 | fromLimbs | add | sub | shl | mul => exact usesFormatRegister_ofR _ nofun nofun
  case fromHex | fromBin =>
    exact iteInduction (motive := UsesFormatRegister _) (fun _ => usesFormatRegister_ofR _ nofun nofun)
      fun _ => usesFormatRegister_ofError _ _
  case toHex =>
    exact usesFormatRegister_ofT rfl (List.length_pos_of_ne_nil (hexText_ne_nil c.a)) (hexText_length_le c.a)
  case limb =>
    exact iteInduction (motive := UsesFormatRegister _) (fun _ => usesFormatRegister_ofQ rfl nofun)
      fun _ => usesFormatRegister_ofError _ _
  case bitSet =>
    exact iteInduction (motive := UsesFormatRegister _)
      (fun _ => usesFormatRegister_ofQ rfl fun _ => bitOf_eq_zero_or_one c.a c.x.toNat)
      fun _ => usesFormatRegister_ofError _ _

/-- Settles O16: the response to a port is its row's command's. -/
theorem formatFixesResultRegister : Obligations.FormatFixesResultRegister := by
  intro c row hrow s rest
  have h := usesFormatRegister_assemble c row (mem_of_lookup hrow)
  rw [← portResponse_of_decode (decode_of_lookup hrow)] at h
  exact ⟨_, step_presenting_eq s c rest, h⟩

end Sys2Proof.Machine
end
